-- ==== Sys2Proof/Word.lean ====
section
/-!
DEFINITION. The word types of BMPENC (00_scope.md R8, R9). Only what no repair would ever touch stands here; every
helper over words and bytes stands in Machine/Ops.lean and Machine/Operands.lean.
-/

namespace Sys2Proof

/-- A byte, an unsigned 8-bit value (R9). -/
abbrev Byte := BitVec 8

/-- A register value, a u32: `REG_W` = 32 (R7, R9). -/
abbrev Word := BitVec 32

/-- The 39-bit access word of R70: DIR at bit 38, OFF at bits 37:32, DATA at bits 31:0. -/
abbrev AccessWord := BitVec 39

end Sys2Proof
end

