-- ==== Sys2Proof/Syntax.lean ====
section
/-!
DEFINITION. The instruction syntax: one constructor per row of spec/opcode_table.json. BMPENC fetches no program
(R15, R22); its instructions are the host's accesses to the register window, written as 39-bit access words
(30_encoding.md R70), and a write to CMD is a command (R71, R72).
-/

namespace Sys2Proof

/-- The two pixel-depth modes (R2), the field MODE of the command word (R71) and `L.mode` (R34). -/
inductive Mode where
  /-- Truecolor, 24 bits per pixel -/
  | tc
  /-- Monochrome, 1 bit per pixel -/
  | mono
  deriving DecidableEq, Repr

/-- The names of the register window (R12, R23). `rsvd k` is the reserved slot at offset 0x20 + 4k (R32). -/
inductive Reg where
  | cmd
  | status
  | width
  | height
  | srcAddr
  | srcLen
  | dstAddr
  | outLen
  | rsvd (k : BitVec 3)
  deriving DecidableEq, Repr

/-- One host access to the register window. The bits a row does not examine are kept as operands, so that no bit of an
access word is lost: `ign` is the command word's IGN field (bits 31:2, R71), `mode` the MODE bit of a NOP, `d` the DATA
of a read ("0, not examined", R70), `off` the byte offset of a reserved slot, `v` the value written. -/
inductive Instr where
  /-- row NOP (R188) -/
  | nop (mode : Bool) (ign : BitVec 30)
  /-- row ENCODE_TC (R192) -/
  | encodeTc (ign : BitVec 30)
  /-- row ENCODE_MONO (R193) -/
  | encodeMono (ign : BitVec 30)
  /-- row WR_STATUS (R186) -/
  | wrStatus (v : Word)
  /-- row WR_WIDTH (R181) -/
  | wrWidth (v : Word)
  /-- row WR_HEIGHT (R182) -/
  | wrHeight (v : Word)
  /-- row WR_SRC_ADDR (R183) -/
  | wrSrcAddr (v : Word)
  /-- row WR_SRC_LEN (R184) -/
  | wrSrcLen (v : Word)
  /-- row WR_DST_ADDR (R185) -/
  | wrDstAddr (v : Word)
  /-- row WR_OUT_LEN (R187) -/
  | wrOutLen (v : Word)
  /-- row WR_RSVD (R197) -/
  | wrRsvd (off : BitVec 6) (v : Word)
  /-- row RD_CMD (R199) -/
  | rdCmd (d : Word)
  /-- row RD_STATUS (R200) -/
  | rdStatus (d : Word)
  /-- row RD_WIDTH (R201) -/
  | rdWidth (d : Word)
  /-- row RD_HEIGHT (R202) -/
  | rdHeight (d : Word)
  /-- row RD_SRC_ADDR (R203) -/
  | rdSrcAddr (d : Word)
  /-- row RD_SRC_LEN (R204) -/
  | rdSrcLen (d : Word)
  /-- row RD_DST_ADDR (R205) -/
  | rdDstAddr (d : Word)
  /-- row RD_OUT_LEN (R206) -/
  | rdOutLen (d : Word)
  /-- row RD_RSVD (R207) -/
  | rdRsvd (off : BitVec 6) (d : Word)
  deriving DecidableEq, Repr

end Sys2Proof
end

