-- ==== Sys2Proof/WellFormed.lean ====
section
/-!
DEFINITION. Which terms of `Instr` the encoding admits (30_encoding.md R70, opcode_table.json). Every operand but a
reserved slot's offset takes every value of its width.
-/

namespace Sys2Proof

/-- An offset of a reserved slot, 0x20 to 0x3C: OFF[5] = 1 and OFF[1:0] = 00 (rows WR_RSVD and RD_RSVD; R32). -/
def isReservedOffset (off : BitVec 6) : Bool :=
  off.getLsbD 5 && !off.getLsbD 1 && !off.getLsbD 0

/-- The instruction's operands are ones its row admits. -/
def Instr.wf : Instr → Bool
  | .wrRsvd off _ => isReservedOffset off
  | .rdRsvd off _ => isReservedOffset off
  | .nop _ _ => true
  | .encodeTc _ => true
  | .encodeMono _ => true
  | .wrStatus _ => true
  | .wrWidth _ => true
  | .wrHeight _ => true
  | .wrSrcAddr _ => true
  | .wrSrcLen _ => true
  | .wrDstAddr _ => true
  | .wrOutLen _ => true
  | .rdCmd _ => true
  | .rdStatus _ => true
  | .rdWidth _ => true
  | .rdHeight _ => true
  | .rdSrcAddr _ => true
  | .rdSrcLen _ => true
  | .rdDstAddr _ => true
  | .rdOutLen _ => true

end Sys2Proof
end

