-- ==== Sys2Proof/Decode.lean ====
section
/-!
DEFINITION. The decoder and the encoder of host accesses (30_encoding.md R70 to R76, opcode_table.json): access words to
instructions, the same over the five bytes an access word is laid out in, and back.
-/

namespace Sys2Proof

/-- Why the decoder gives an input no instruction. -/
inductive DecodeReject where
  /-- OFF[1:0] ≠ 00: outside the admitted interface (R70, R75, R262) -/
  | offsetNotAligned
  /-- the input is not the five bytes of one access word -/
  | notFiveBytes
  /-- bit 39 of the five bytes, which no access word has, is set -/
  | aboveAccessWord
  deriving DecidableEq, Repr

/-! ## Fields -/

/-- The access word with the given DIR, OFF and DATA (R70). -/
def accessWord (write : Bool) (off : BitVec 6) (data : Word) : AccessWord :=
  BitVec.ofBool write ++ off ++ data

/-- DIR, bit 38: true for a write (R70). -/
def accessDir (a : AccessWord) : Bool := a.getLsbD 38

/-- OFF, bits 37:32 (R70). -/
def accessOff (a : AccessWord) : BitVec 6 := a.extractLsb' 32 6

/-- DATA, bits 31:0 (R70). -/
def accessData (a : AccessWord) : Word := a.extractLsb' 0 32

/-- The command word with the given IGN, MODE and START (R71). -/
def commandWord (ign : BitVec 30) (mode start : Bool) : Word :=
  ign ++ BitVec.ofBool mode ++ BitVec.ofBool start

/-- START, bit 0 of the command word (R71). -/
def commandStart (c : Word) : Bool := c.getLsbD 0

/-- MODE, bit 1 of the command word (R71): false for Truecolor, true for Monochrome. -/
def commandMode (c : Word) : Bool := c.getLsbD 1

/-- IGN, bits 31:2 of the command word (R71). -/
def commandIgn (c : Word) : BitVec 30 := c.extractLsb' 2 30

/-! ## Registers and their offsets (R23) -/

/-- The byte offset of a register in the window (R23). -/
def Reg.offset : Reg → BitVec 6
  | .cmd => 0x00
  | .status => 0x04
  | .width => 0x08
  | .height => 0x0C
  | .srcAddr => 0x10
  | .srcLen => 0x14
  | .dstAddr => 0x18
  | .outLen => 0x1C
  | .rsvd k => 1#1 ++ k ++ 0#2

/-- The register at a word-aligned offset of the window (R23). The two low bits are not examined. -/
def regAt (off : BitVec 6) : Reg :=
  match off.getLsbD 5, (off.extractLsb' 2 3).toNat with
  | true, _ => .rsvd (off.extractLsb' 2 3)
  | false, 0 => .cmd
  | false, 1 => .status
  | false, 2 => .width
  | false, 3 => .height
  | false, 4 => .srcAddr
  | false, 5 => .srcLen
  | false, 6 => .dstAddr
  | false, _ => .outLen

/-! ## Decoding -/

/-- The command a command word decodes into (R72): total on all 2^32 words. -/
def decodeCommand (c : Word) : Instr :=
  match commandStart c, commandMode c with
  | false, mode => .nop mode (commandIgn c)
  | true, false => .encodeTc (commandIgn c)
  | true, true => .encodeMono (commandIgn c)

/-- The instruction of a write to the register at `off` (rows NOP to WR_RSVD). -/
def decodeWrite (off : BitVec 6) (v : Word) : Instr :=
  match regAt off with
  | .cmd => decodeCommand v
  | .status => .wrStatus v
  | .width => .wrWidth v
  | .height => .wrHeight v
  | .srcAddr => .wrSrcAddr v
  | .srcLen => .wrSrcLen v
  | .dstAddr => .wrDstAddr v
  | .outLen => .wrOutLen v
  | .rsvd _ => .wrRsvd off v

/-- The instruction of a read of the register at `off` (rows RD_CMD to RD_RSVD); DATA is not examined (R70). -/
def decodeRead (off : BitVec 6) (d : Word) : Instr :=
  match regAt off with
  | .cmd => .rdCmd d
  | .status => .rdStatus d
  | .width => .rdWidth d
  | .height => .rdHeight d
  | .srcAddr => .rdSrcAddr d
  | .srcLen => .rdSrcLen d
  | .dstAddr => .rdDstAddr d
  | .outLen => .rdOutLen d
  | .rsvd _ => .rdRsvd off d

/-- The instruction of an access at a word-aligned offset: a write for DIR = 1, a read for DIR = 0 (R70). -/
def decodeAccess : Bool → BitVec 6 → Word → Instr
  | true, off, v => decodeWrite off v
  | false, off, d => decodeRead off d

/-- The decoder over access words (R70): every word with OFF[1:0] = 00 has an instruction, every other is rejected. -/
def decodeWord (a : AccessWord) : Except DecodeReject Instr :=
  if (accessOff a).extractLsb' 0 2 = 0#2 then .ok (decodeAccess (accessDir a) (accessOff a) (accessData a))
  else .error .offsetNotAligned

/-! ## Five-byte frames

The spec gives the access word no byte layout beyond the byte lanes of DATA (R57: lane k carries bits 8k+7 to 8k). The
frame puts those four lanes first and OFF and DIR in the byte after them (assumption 11). -/

/-- The number that bytes laid out little-endian stand for. -/
def bytesToNat : List Byte → Nat
  | [] => 0
  | b :: bs => b.toNat + 2 ^ 8 * bytesToNat bs

/-- The `n` lowest bytes of a number, little-endian. -/
def natToBytes : Nat → Nat → List Byte
  | 0, _ => []
  | n + 1, v => BitVec.ofNat 8 v :: natToBytes n (v / 2 ^ 8)

/-- The decoder, total on any bytes. -/
def decode (bs : List Byte) : Except DecodeReject Instr :=
  if bs.length = 5 then
    if bytesToNat bs < 2 ^ 39 then decodeWord (BitVec.ofNat 39 (bytesToNat bs)) else .error .aboveAccessWord
  else .error .notFiveBytes

/-- The instruction the decoder reads from the access word `w` of an `nbits`-bit row of opcode_table.json. -/
def decodeTableWord (nbits w : Nat) : Option Instr :=
  (decode (natToBytes 5 (w % 2 ^ nbits))).toOption

/-! ## Encoding -/

/-- The access word of an instruction (R70 to R72, opcode_table.json). -/
def encode : Instr → AccessWord
  | .nop mode ign => accessWord true 0x00 (commandWord ign mode false)
  | .encodeTc ign => accessWord true 0x00 (commandWord ign false true)
  | .encodeMono ign => accessWord true 0x00 (commandWord ign true true)
  | .wrStatus v => accessWord true 0x04 v
  | .wrWidth v => accessWord true 0x08 v
  | .wrHeight v => accessWord true 0x0C v
  | .wrSrcAddr v => accessWord true 0x10 v
  | .wrSrcLen v => accessWord true 0x14 v
  | .wrDstAddr v => accessWord true 0x18 v
  | .wrOutLen v => accessWord true 0x1C v
  | .wrRsvd off v => accessWord true off v
  | .rdCmd d => accessWord false 0x00 d
  | .rdStatus d => accessWord false 0x04 d
  | .rdWidth d => accessWord false 0x08 d
  | .rdHeight d => accessWord false 0x0C d
  | .rdSrcAddr d => accessWord false 0x10 d
  | .rdSrcLen d => accessWord false 0x14 d
  | .rdDstAddr d => accessWord false 0x18 d
  | .rdOutLen d => accessWord false 0x1C d
  | .rdRsvd off d => accessWord false off d

/-- The five bytes of an instruction's access word, the decoder's frame. -/
def encodeBytes (i : Instr) : List Byte := natToBytes 5 (encode i).toNat

/-! ## The opcode table -/

/-- One row of opcode_table.json: the row applies to `A` when `(A & mask) = pattern` (R70). -/
structure OpcodeRow where
  mnemonic : String
  pattern : AccessWord
  mask : AccessWord
  deriving DecidableEq, Repr

/-- The row applies to the access word. -/
def OpcodeRow.applies (r : OpcodeRow) (a : AccessWord) : Bool := a &&& r.mask = r.pattern

/-- The rows of the table for commands and writes. -/
def writeRows : List OpcodeRow := [
  ⟨"NOP", 0x4000000000, 0x7F00000001⟩,
  ⟨"ENCODE_TC", 0x4000000001, 0x7F00000003⟩,
  ⟨"ENCODE_MONO", 0x4000000003, 0x7F00000003⟩,
  ⟨"WR_STATUS", 0x4400000000, 0x7F00000000⟩,
  ⟨"WR_WIDTH", 0x4800000000, 0x7F00000000⟩,
  ⟨"WR_HEIGHT", 0x4C00000000, 0x7F00000000⟩,
  ⟨"WR_SRC_ADDR", 0x5000000000, 0x7F00000000⟩,
  ⟨"WR_SRC_LEN", 0x5400000000, 0x7F00000000⟩,
  ⟨"WR_DST_ADDR", 0x5800000000, 0x7F00000000⟩,
  ⟨"WR_OUT_LEN", 0x5C00000000, 0x7F00000000⟩,
  ⟨"WR_RSVD", 0x6000000000, 0x6300000000⟩]

/-- The rows of the table for reads. -/
def readRows : List OpcodeRow := [
  ⟨"RD_CMD", 0x0000000000, 0x7F00000000⟩,
  ⟨"RD_STATUS", 0x0400000000, 0x7F00000000⟩,
  ⟨"RD_WIDTH", 0x0800000000, 0x7F00000000⟩,
  ⟨"RD_HEIGHT", 0x0C00000000, 0x7F00000000⟩,
  ⟨"RD_SRC_ADDR", 0x1000000000, 0x7F00000000⟩,
  ⟨"RD_SRC_LEN", 0x1400000000, 0x7F00000000⟩,
  ⟨"RD_DST_ADDR", 0x1800000000, 0x7F00000000⟩,
  ⟨"RD_OUT_LEN", 0x1C00000000, 0x7F00000000⟩,
  ⟨"RD_RSVD", 0x2000000000, 0x6300000000⟩]

/-- opcode_table.json, in its order. -/
def opcodeTable : List OpcodeRow := writeRows ++ readRows

/-- The mnemonic of an instruction's row. -/
def Instr.mnemonic : Instr → String
  | .nop _ _ => "NOP"
  | .encodeTc _ => "ENCODE_TC"
  | .encodeMono _ => "ENCODE_MONO"
  | .wrStatus _ => "WR_STATUS"
  | .wrWidth _ => "WR_WIDTH"
  | .wrHeight _ => "WR_HEIGHT"
  | .wrSrcAddr _ => "WR_SRC_ADDR"
  | .wrSrcLen _ => "WR_SRC_LEN"
  | .wrDstAddr _ => "WR_DST_ADDR"
  | .wrOutLen _ => "WR_OUT_LEN"
  | .wrRsvd _ _ => "WR_RSVD"
  | .rdCmd _ => "RD_CMD"
  | .rdStatus _ => "RD_STATUS"
  | .rdWidth _ => "RD_WIDTH"
  | .rdHeight _ => "RD_HEIGHT"
  | .rdSrcAddr _ => "RD_SRC_ADDR"
  | .rdSrcLen _ => "RD_SRC_LEN"
  | .rdDstAddr _ => "RD_DST_ADDR"
  | .rdOutLen _ => "RD_OUT_LEN"
  | .rdRsvd _ _ => "RD_RSVD"

/-- The instruction is a write to the window: DIR = 1 (R70). -/
def Instr.isWrite : Instr → Bool
  | .nop _ _ | .encodeTc _ | .encodeMono _ => true
  | .wrStatus _ | .wrWidth _ | .wrHeight _ | .wrSrcAddr _ | .wrSrcLen _ | .wrDstAddr _ | .wrOutLen _ | .wrRsvd _ _ => true
  | .rdCmd _ | .rdStatus _ | .rdWidth _ | .rdHeight _ | .rdSrcAddr _ | .rdSrcLen _ | .rdDstAddr _ | .rdOutLen _ => false
  | .rdRsvd _ _ => false

end Sys2Proof
end

