-- ==== Sys2Proof/Config.lean ====
section
/-!
DEFINITION. What the platform fixes and what the spec leaves free: the implementation parameters of 00_scope.md R7, the
OPEN ones as an uninterpreted constant, the draws of 70_reset_and_hazards.md R251 as an uninterpreted function, and the
one value the model chooses for memory that nothing has written (assumption 3).
-/

namespace Sys2Proof

/-- The direction of an engine access of `MemAdmit(addr, dir)` (R7, R52). -/
inductive Dir where
  | read
  | write
  deriving DecidableEq, Repr

/-- One range of addresses that the platform's memory serves, with what the engine may do there (R52). -/
structure Region where
  /-- first byte address -/
  base : Nat
  /-- length in bytes -/
  size : Nat
  /-- the engine's reads are accepted -/
  readable : Bool
  /-- the engine's writes are accepted -/
  writable : Bool
  deriving DecidableEq, Repr, Inhabited

/-- The two OPEN parameters of R7 (U9, U10): `REG_BASE`, and `MemAdmit` as the list of the address ranges that hold
memory. Every set of byte addresses below 2^32 is such a list. Assumption 1. -/
structure Platform where
  /-- `REG_BASE`: the host address of the 64-byte register window. DESIGN CHOICE (assumption 17): any 32-bit value, of any
  alignment; the spec bounds neither it nor the width of a host address -/
  regBase : Word
  /-- the ranges that hold ordinary memory -/
  ram : List Region
  deriving DecidableEq, Repr, Inhabited

/-- The platform of the reset state: OPEN in the spec (R7), so it has no body and no proof can see what it is. -/
opaque Config.platform : Platform

/-- Free value: the `n`-th draw (R251, U4), a byte with no law. The step reads it at `State.draws` and advances that
counter. Assumption 4. -/
opaque Config.draw : Nat → Byte

/-- What a byte of system memory that nothing has written reads as. DESIGN CHOICE (assumption 3, unsafe): the spec
gives system memory no contents at reset; the start states of 95_test_vectors.md section 3 take 0x00. -/
def Config.unlistedByte : Byte := 0x00

/-- The number of byte addresses of system memory, 2^`ADDR_W` with `ADDR_W` = 32 (R7, R50). -/
abbrev Config.addrSpace : Nat := 2 ^ 32

/-- `REG_WINDOW`, the size of the register window in bytes (R7, R23). -/
abbrev Config.regWindow : Nat := 64

/-- `MAX_TOTAL`, the largest output file length the block accepts (R7). -/
abbrev Config.maxTotal : Nat := 2 ^ 32 - 1

end Sys2Proof
end

