-- ==== Sys2Proof/Machine/State.lean ====
section
/-!
DEFINITION. The state of BMPENC (10_state.md), the events the outside world sends it, the reasons a step can stop, and
the state after reset (70_reset_and_hazards.md R250). Plain data only.
-/

namespace Sys2Proof.Machine

/-- The engine phase (R33). -/
inductive Phase where
  | idle
  | busy
  deriving DecidableEq, Repr

/-- The latched command record `L` (R34). The fields are integers, not register values: the engine computes with them
exactly (R10). Their ranges while BUSY are `Latch.Valid` in Safety.lean. -/
structure Latch where
  mode : Mode
  w : Nat
  h : Nat
  src : Nat
  len : Nat
  dst : Nat
  total : Nat
  deriving DecidableEq, Repr

/-- `L` after reset: every field 0, the mode TC (R34, R250). -/
def Latch.zero : Latch := ⟨.tc, 0, 0, 0, 0, 0, 0⟩

/-- System memory (R50): the listed bytes, addresses strictly rising, none equal to what an unlisted byte reads as.
`Memory.wf` in Ops.lean says so. -/
abbrev Memory := List Host.Cell

/-- One access to the register window as the bus brings it to the block: DIR, the byte offset from `REG_BASE`, the
width in bits, and DATA (R70). Only `width = 32` with `off` a multiple of 4 is in the admitted interface (R58, R262). -/
structure BusAccess where
  write : Bool
  off : BitVec 6
  width : Nat
  data : Word
  deriving DecidableEq, Repr

/-- What can happen to the machine next: a host action (R82), a turn of the engine chosen by the scheduler (U8), or
reset (R250). -/
inductive Event where
  /-- a host access to the window, given by its offset (`WR`, `RD`) -/
  | access (a : BusAccess)
  /-- a host bus access given by its host address, 32 bits wide (DESIGN CHOICE, assumption 17); the platform selects the
  block where the address lies in the window (R23) -/
  | bus (write : Bool) (addr : Word) (width : Nat) (data : Word)
  /-- `POLL`: repeat a read until `(v & mask) = value` -/
  | poll (off : BitVec 6) (mask value : Word)
  /-- `MEMW`: the host writes bytes to system memory, not through the block -/
  | memWrite (addr : Nat) (bytes : List Byte)
  /-- `MEMR`: the host reads `n` bytes of system memory, not through the block -/
  | memRead (addr n : Nat)
  /-- `FENCE` -/
  | fence
  /-- the scheduler gives the engine a turn -/
  | engine
  /-- the external reset event -/
  | reset
  deriving DecidableEq, Repr

/-- What the last host action returned. -/
inductive Response where
  /-- nothing: a write, a fence, or no host action yet -/
  | none
  /-- the value of a register read -/
  | word (v : Word)
  /-- the bytes of a memory read -/
  | bytes (bs : List Byte)
  deriving DecidableEq, Repr

/-- The whole state. The first nine fields are the block's (R20); `mem` is system memory (R50); the rest is the model's
own (INVENTORY.md, State). -/
structure State where
  /-- STATUS (R25) -/
  status : Word
  /-- WIDTH (R26) -/
  width : Word
  /-- HEIGHT (R27) -/
  height : Word
  /-- SRC_ADDR (R28) -/
  srcAddr : Word
  /-- SRC_LEN (R29) -/
  srcLen : Word
  /-- DST_ADDR (R30) -/
  dstAddr : Word
  /-- OUT_LEN (R31) -/
  outLen : Word
  /-- the engine phase (R33) -/
  phase : Phase
  /-- the latched command record `L` (R34) -/
  latch : Latch
  /-- system memory (R50) -/
  mem : Memory
  /-- the OPEN parameters of R7; no step changes them (assumption 1) -/
  plat : Platform
  /-- what happens next, first event first (assumption 2) -/
  inbox : List Event
  /-- what the last host action returned (assumption 9) -/
  response : Response
  /-- the latched records of the commands whose interval of R255 and R256 is open (assumption 6) -/
  openCmds : List Latch
  /-- how many draws have been used (assumption 4) -/
  draws : Nat
  deriving DecidableEq, Repr

/-- The model faults (R16, R226): the hardware's behaviour is unspecified and the run stops. Every one is safe: the
model claims nothing of such a run. -/
inductive Fault where
  /-- An accepted command's source and destination regions share a byte (R68). Raised by ENCODE_TC and ENCODE_MONO.
  Safe. -/
  | overlap
  /-- The host writes a byte of a latched source region inside the interval of R255. Raised by a host memory write.
  Safe. -/
  | srcWriteBusy
  /-- The host reads or writes a byte of a latched destination region inside the interval of R256. Raised by a host
  memory read or write. Safe. -/
  | dstAccessBusy
  /-- A host memory action reaches past the last address, 2^32 - 1 (R50). Raised by a host memory read or write. Safe. -/
  | hostOutsideMemory
  deriving DecidableEq, Repr

/-- Why a step gives no meaning (R16 `refuse`): the run stops, which keeps the refusal mark for the rest of it. Every
one is safe. -/
inductive Refusal where
  /-- No meaning for this instruction yet. Raised by no arm of this model. Safe. -/
  | notModelled (mnemonic : String)
  /-- A window access that is not 32 bits wide (R262). Raised by the fetch of an access. Safe. -/
  | accessWidth
  /-- A window access whose offset is not a multiple of 4 (R262). Raised by the fetch of an access. Safe. -/
  | accessAlignment
  /-- A bus access whose host address lies outside the register window: it does not reach the block, and the spec says
  nothing of what it reaches (R67). Raised by the fetch of a bus access. Safe. -/
  | outsideWindow
  /-- A host memory action on a byte of the register window: a window access that is not a 32-bit access (R58, R262).
  Raised by a host memory read or write. Safe. -/
  | memoryActionInWindow
  deriving DecidableEq, Repr

/-- The state after reset on a given platform, with system memory as listed nowhere (R250, R23, R33, R34). -/
def State.resetOn (p : Platform) : State where
  status := 0
  width := 0
  height := 0
  srcAddr := 0
  srcLen := 0
  dstAddr := 0
  outLen := 0
  phase := .idle
  latch := Latch.zero
  mem := []
  plat := p
  inbox := []
  response := .none
  openCmds := []
  draws := 0

/-- The machine right after reset (R250), on the platform that the spec leaves OPEN. -/
def State.reset : State := State.resetOn Config.platform

end Sys2Proof.Machine
end

