-- ==== Sys2Proof/Machine/Flags.lean ====
section
/-!
DEFINITION. The STATUS word (10_state.md R25, 30_encoding.md R74): its fields, how they make up the word, and the values
the operations write. The block has no other flags (R35).
-/

namespace Sys2Proof.Machine

/-- The STATUS word with the given fields (R74): `zext_32(ERRCODE << 4 | ERR << 2 | DONE << 1 | BUSY)`; bit 3 and bits
31:8 are 0. -/
def statusWord (busy done err : Bool) (errcode : BitVec 4) : Word :=
  (errcode.setWidth 32 <<< 4) ||| ((BitVec.ofBool err).setWidth 32 <<< 2) ||| ((BitVec.ofBool done).setWidth 32 <<< 1) |||
    (BitVec.ofBool busy).setWidth 32

/-- STATUS.BUSY, bit 0 (R25). -/
def statusBusy (v : Word) : Bool := v.getLsbD 0

/-- STATUS.DONE, bit 1 (R25). -/
def statusDone (v : Word) : Bool := v.getLsbD 1

/-- STATUS.ERR, bit 2 (R25). -/
def statusErr (v : Word) : Bool := v.getLsbD 2

/-- STATUS.ERRCODE, bits 7:4 (R25). -/
def statusErrcode (v : Word) : BitVec 4 := v.extractLsb' 4 4

/-- The two error conditions of the block (R220). -/
inductive ErrorCond where
  /-- code 1 (R221) -/
  | invalidBuffer
  /-- code 2 (R222) -/
  | range
  deriving DecidableEq, Repr

/-- The error's code in ERRCODE (R220). -/
def ErrorCond.code : ErrorCond → BitVec 4
  | .invalidBuffer => 1
  | .range => 2

/-- STATUS while a command runs, 0x00000001 (R191). -/
def statusOfBusy : Word := statusWord true false false 0

/-- STATUS of a completed command, 0x00000002 (R195). -/
def statusOfDone : Word := statusWord false true false 0

/-- STATUS of a rejected command, 0x00000014 or 0x00000024 (R224). -/
def statusOfError (c : ErrorCond) : Word := statusWord false false true c.code

end Sys2Proof.Machine
end

