-- ==== Sys2Proof/Machine/Ops.lean ====
section
/-!
DEFINITION. The named operations over memory, regions and registers, the byte-order helpers, and the entry of an error
(60_exceptions.md R224).
-/

namespace Sys2Proof.Machine

/-! ## Bytes of an integer (R11, R55) -/

/-- The four bytes of a word, little-endian: `[v[7:0], v[15:8], v[23:16], v[31:24]]` (R11, R57). -/
def wordBytes (v : Word) : List Byte :=
  [v.extractLsb' 0 8, v.extractLsb' 8 8, v.extractLsb' 16 8, v.extractLsb' 24 8]

/-- The word whose byte lanes are given, lane 0 first (R57). -/
def wordOfLanes (b0 b1 b2 b3 : Byte) : Word := b3 ++ b2 ++ b1 ++ b0

/-- `LE16(v)` (R11). -/
def le16 (v : Nat) : List Byte := [BitVec.ofNat 8 v, BitVec.ofNat 8 (v / 2 ^ 8)]

/-- `LE32(v)` for `-2^31 ≤ v < 2^32` (R11): a negative value is written as `v + 2^32`. -/
def le32 (v : Int) : List Byte := wordBytes (BitVec.ofInt 32 v)

/-- `zeros(n)` (R11). -/
def zeros (n : Nat) : List Byte := List.replicate n 0x00

/-- `Concat_{i = 0 .. n-1} f(i)` (R11). -/
def concat (n : Nat) (f : Nat → List Byte) : List Byte := (List.range n).flatMap f

/-! ## Exact arithmetic (R10) -/

/-- `ceil(a / b)` for `b > 0` (R10). -/
def ceilDiv (a b : Nat) : Nat := (a + b - 1) / b

/-! ## System memory (R50) -/

/-- The canonical form from address `lo` on: addresses strictly rising from `lo`, below 2^32, no byte equal to what an
unlisted address reads as. -/
def Memory.wfFrom : Nat → Memory → Bool
  | _, [] => true
  | lo, (k, b) :: m =>
    decide (lo ≤ k) && decide (k < Config.addrSpace) && decide (b ≠ Config.unlistedByte) && Memory.wfFrom (k + 1) m

/-- The memory is in its one canonical form. -/
def Memory.wf (m : Memory) : Bool := Memory.wfFrom 0 m

/-- The byte at an address. -/
def Memory.read : Memory → Nat → Byte
  | [], _ => Config.unlistedByte
  | (k, b) :: m, a => if k = a then b else Memory.read m a

/-- Store one byte, keeping the canonical form. -/
def Memory.write : Memory → Nat → Byte → Memory
  | [], a, b => if b = Config.unlistedByte then [] else [(a, b)]
  | (k, c) :: m, a, b =>
    if a < k then (if b = Config.unlistedByte then (k, c) :: m else (a, b) :: (k, c) :: m)
    else if a = k then (if b = Config.unlistedByte then m else (a, b) :: m)
    else (k, c) :: Memory.write m a b

/-- `MemRead(a, n)`: the `n` bytes from `a`, in address order (R13). -/
def Memory.readBytes (m : Memory) (a n : Nat) : List Byte := (List.range n).map fun i => Memory.read m (a + i)

/-- `MemWrite(a, |bs|, bs)`: the bytes from `a` on, `bs[0]` at `a` (R13). -/
def Memory.writeBytes : Memory → Nat → List Byte → Memory
  | m, _, [] => m
  | m, a, b :: bs => Memory.writeBytes (Memory.write m a b) (a + 1) bs

/-! ## Regions (R51, R68) -/

/-- The address lies in `[base, base + n)`. -/
def inRegion (base n a : Nat) : Bool := decide (base ≤ a) && decide (a < base + n)

/-- `[a, a + n)` and `[b, b + k)` share a byte (R68). -/
def regionsMeet (a n b k : Nat) : Bool :=
  decide (0 < n) && decide (0 < k) && decide (a < b + k) && decide (b < a + n)

/-- The region lies in the 2^32-byte address space, so that it does not wrap (R50, R190). -/
def inAddrSpace (a n : Nat) : Bool := decide (a + n ≤ Config.addrSpace)

end Sys2Proof.Machine

namespace Sys2Proof

/-! ## The platform (R7, R52, R69) -/

/-- The host address lies in the register window (R23). DESIGN CHOICE (assumption 17): a host address is 32 bits wide, and
the window's 64 bytes are counted from `REG_BASE` modulo 2^32, so that a window whose base is above 2^32 - 64 goes on at
address 0; the spec states neither. Unsafe for such a base only. -/
def Platform.inWindow (p : Platform) (addr : Word) : Bool := decide ((addr - p.regBase).toNat < Config.regWindow)

/-- The byte offset in the window of a host address that selects the block (R23), modulo 2^32 as `inWindow` is
(assumption 17). -/
def Platform.windowOffset (p : Platform) (addr : Word) : Option (BitVec 6) :=
  match p.inWindow addr with
  | true => some ((addr - p.regBase).setWidth 6)
  | false => none

/-- `MemAdmit(a, dir)` (R7, R52): memory is there and accepts the access. False outside the address space and on the
block's own window (R69). -/
def Platform.admits (p : Platform) (a : Nat) (d : Dir) : Bool :=
  decide (a < Config.addrSpace) && !p.inWindow (BitVec.ofNat 32 a) &&
    p.ram.any fun r => Machine.inRegion r.base r.size a && (match d with | .read => r.readable | .write => r.writable)

/-- `MemAdmit` holds for every byte of `[a, a + n)` (R13, R52). -/
def Platform.admitsAll (p : Platform) (a n : Nat) (d : Dir) : Bool := (List.range n).all fun i => p.admits (a + i) d

/-- A byte of `[a, a + n)` lies in the register window (assumption 8). -/
def Platform.windowMeets (p : Platform) (a n : Nat) : Bool :=
  (List.range n).any fun i => p.inWindow (BitVec.ofNat 32 (a + i))

end Sys2Proof

namespace Sys2Proof.Machine

/-! ## The register window (R23) -/

/-- The value a read of a register returns (R23, R24, R32): CMD and the reserved slots read 0. -/
def State.readReg (s : State) : Reg → Word
  | .cmd => 0
  | .status => s.status
  | .width => s.width
  | .height => s.height
  | .srcAddr => s.srcAddr
  | .srcLen => s.srcLen
  | .dstAddr => s.dstAddr
  | .outLen => s.outLen
  | .rsvd _ => 0

/-- What a host write of a value to a register other than CMD stores (R23): STATUS, OUT_LEN and the reserved slots
ignore it; CMD stores nothing (R24), its effect is the command's. -/
def State.writeReg (s : State) : Reg → Word → State
  | .cmd, _ => s
  | .status, _ => s
  | .width, v => { s with width := v }
  | .height, v => { s with height := v }
  | .srcAddr, v => { s with srcAddr := v }
  | .srcLen, v => { s with srcLen := v }
  | .dstAddr, v => { s with dstAddr := v }
  | .outLen, _ => s
  | .rsvd _, _ => s

/-- The host receives the value of a register: the block's state is unchanged (R59). -/
def State.respondReg (s : State) (r : Reg) : State := { s with response := .word (s.readReg r) }

/-- A host read of STATUS that returns BUSY = 0 closes the interval of R255 and R256 of every earlier command. The field
is the model's record of a host duty, no state of the block (assumption 6). -/
def State.closeIfIdle (s : State) : State := { s with openCmds := if statusBusy s.status then s.openCmds else [] }

/-! ## Error entry (R224) -/

/-- `raise <cond>()`: STATUS takes the error, OUT_LEN becomes 0, and nothing else changes. The block has no return from
an error (R225). -/
def State.raise (s : State) (c : ErrorCond) : State := { s with status := statusOfError c, outLen := 0 }

end Sys2Proof.Machine
end

