-- ==== Sys2Proof/Machine/Header.lean ====
section
/-!
DEFINITION. The shared size arithmetic and the header builder (40_header.md). Pure functions of exact integers; the
operand `bpp ∈ {1, 24}` of the spec is the mode, which fixes it.
-/

namespace Sys2Proof.Machine

/-- The bits per pixel of a mode: 24 or 1 (R2, R113). -/
def bpp : Mode → Nat
  | .tc => 24
  | .mono => 1

/-- `OffBits(bpp)` (R101): 54, or 62 with the palette. -/
def offBits : Mode → Nat
  | .tc => 54
  | .mono => 62

/-- `Pad4(n) = (4 - (n mod 4)) mod 4` (R102). -/
def pad4 (n : Nat) : Nat := (4 - n % 4) % 4

/-- `RowBytes(w, bpp)` (R103, R132, R152). -/
def rowBytes : Mode → Nat → Nat
  | .tc, w => 3 * w
  | .mono, w => ceilDiv w 8

/-- `Stride(w, bpp)`: the bytes of one emitted row, padding included (R103, R133, R154). -/
def stride (m : Mode) (w : Nat) : Nat := rowBytes m w + pad4 (rowBytes m w)

/-- `FileSize(w, h, bpp)` (R104). -/
def fileSize (m : Mode) (w h : Nat) : Nat := offBits m + h * stride m w

/-- BitmapFileHeader, file offsets 0 to 13 (R78, R105 to R108). -/
def fileHeader (m : Mode) (w h : Nat) : List Byte :=
  [0x42, 0x4D] ++ le32 (fileSize m w h) ++ le16 0 ++ le16 0 ++ le32 (offBits m)

/-- BitmapInfoHeader, file offsets 14 to 53 (R79, R109 to R116). -/
def infoHeader (m : Mode) (w h sizeImage : Nat) : List Byte :=
  le32 40 ++ le32 w ++ le32 h ++ le16 1 ++ le16 (bpp m) ++ le32 0 ++ le32 sizeImage ++ le32 0 ++ le32 0 ++ le32 0 ++ le32 0

/-- `HDR(w, h, bpp, sizeImage)`, 54 bytes (R117). -/
def hdr (m : Mode) (w h sizeImage : Nat) : List Byte := fileHeader m w h ++ infoHeader m w h sizeImage

end Sys2Proof.Machine
end

