-- ==== Sys2Proof/Machine/Operands.lean ====
section
/-!
DEFINITION. The operands of ENCODE_TC and ENCODE_MONO (30_encoding.md R73) and the two checks on them
(43_commands.md R189, R190).
-/

namespace Sys2Proof.Machine

/-- `int32(v)` (R9): two's complement. -/
def int32 (v : Word) : Int := if v.getLsbD 31 then (v.toNat : Int) - 2 ^ 32 else (v.toNat : Int)

/-- `Validate(wr, hr, len)` returns OK (R189). The product is exact. -/
def validateOk (wr hr len : Word) : Bool :=
  !decide (int32 wr ≤ 0) && !decide (int32 hr ≤ 0) && decide ((len.toNat : Int) = 4 * int32 wr * int32 hr)

/-- `RangeCheck(mode, w, h, src, len, dst)` returns OK (R190). -/
def rangeOk (m : Mode) (w h src len dst : Nat) : Bool :=
  decide (fileSize m w h ≤ Config.maxTotal) && inAddrSpace src len && inAddrSpace dst (fileSize m w h)

/-- The record a START latches from the registers (R73, R191). The width and height are positive once `Validate` has
returned OK, so the record holds them as natural numbers. -/
def operandsOf (m : Mode) (s : State) : Latch :=
  let w := (int32 s.width).toNat
  let h := (int32 s.height).toNat
  ⟨m, w, h, s.srcAddr.toNat, s.srcLen.toNat, s.dstAddr.toNat, fileSize m w h⟩

end Sys2Proof.Machine
end

