-- ==== Sys2Proof/Machine/Commands.lean ====
section
/-!
DEFINITION. The commands: writes to CMD (43_commands.md R188 to R194).
-/

namespace Sys2Proof.Machine

/-- The command is accepted (last lines of R191): `L` takes the record, the phase becomes BUSY, STATUS 0x00000001 and
OUT_LEN 0, and the interval of R255 and R256 opens for the record. -/
def State.accept (s : State) (l : Latch) : State :=
  { s with status := statusOfBusy, outLen := 0, phase := .busy, latch := l, openCmds := l :: s.openCmds }

/-- `StartCommand(mode)`, the action of a START while IDLE (R191). -/
def startCommand (m : Mode) (s : State) : Host.Outcome State Fault Refusal :=
  let l := operandsOf m s
  if !validateOk s.width s.height s.srcLen then .next (s.raise .invalidBuffer)
  else if !rangeOk m l.w l.h l.src l.len l.dst then .next (s.raise .range)
  else if regionsMeet l.src l.len l.dst l.total then .fault .overlap
  else .next (s.accept l)

/-- A CMD write with START = 1: ignored while BUSY (R194), else `StartCommand` (R192, R193). -/
def start (m : Mode) (s : State) : Host.Outcome State Fault Refusal :=
  match s.phase with
  | .busy => .next s
  | .idle => startCommand m s

/-- NOP (R188): no effect. The operands MODE and IGN are ignored. -/
def execNop (_mode : Bool) (_ign : BitVec 30) (s : State) : Host.Outcome State Fault Refusal := .next s

/-- ENCODE_TC (R192). IGN is ignored (R75). -/
def execEncodeTc (_ign : BitVec 30) (s : State) : Host.Outcome State Fault Refusal := start .tc s

/-- ENCODE_MONO (R193). IGN is ignored (R75). -/
def execEncodeMono (_ign : BitVec 30) (s : State) : Host.Outcome State Fault Refusal := start .mono s

end Sys2Proof.Machine
end

