-- ==== Sys2Proof/Machine/Reads.lean ====
section
/-!
DEFINITION. The register reads (43_commands.md R199 to R207). A read has no side effect on the block (R59); the value it
returns stands in `State.response`. DATA of a read is not examined (R70).
-/

namespace Sys2Proof.Machine

/-- RD_CMD (R199): returns 0. -/
def execRdCmd (_d : Word) (s : State) : Host.Outcome State Fault Refusal := .next (s.respondReg .cmd)

/-- RD_STATUS (R200). A value with BUSY = 0 ends the host duty of R255 and R256. -/
def execRdStatus (_d : Word) (s : State) : Host.Outcome State Fault Refusal := .next (s.respondReg .status).closeIfIdle

/-- RD_WIDTH (R201). -/
def execRdWidth (_d : Word) (s : State) : Host.Outcome State Fault Refusal := .next (s.respondReg .width)

/-- RD_HEIGHT (R202). -/
def execRdHeight (_d : Word) (s : State) : Host.Outcome State Fault Refusal := .next (s.respondReg .height)

/-- RD_SRC_ADDR (R203). -/
def execRdSrcAddr (_d : Word) (s : State) : Host.Outcome State Fault Refusal := .next (s.respondReg .srcAddr)

/-- RD_SRC_LEN (R204). -/
def execRdSrcLen (_d : Word) (s : State) : Host.Outcome State Fault Refusal := .next (s.respondReg .srcLen)

/-- RD_DST_ADDR (R205). -/
def execRdDstAddr (_d : Word) (s : State) : Host.Outcome State Fault Refusal := .next (s.respondReg .dstAddr)

/-- RD_OUT_LEN (R206). -/
def execRdOutLen (_d : Word) (s : State) : Host.Outcome State Fault Refusal := .next (s.respondReg .outLen)

/-- RD_RSVD (R207): returns 0. -/
def execRdRsvd (off : BitVec 6) (_d : Word) (s : State) : Host.Outcome State Fault Refusal :=
  .next (s.respondReg (.rsvd (off.extractLsb' 2 3)))

end Sys2Proof.Machine
end

