-- ==== Sys2Proof/Machine/Writes.lean ====
section
/-!
DEFINITION. The register writes (43_commands.md R181 to R187, R197). They act the same in both phases: a write while BUSY
updates the register and not `L` (R198).
-/

namespace Sys2Proof.Machine

/-- WR_STATUS (R186): ignored. -/
def execWrStatus (v : Word) (s : State) : Host.Outcome State Fault Refusal := .next (s.writeReg .status v)

/-- WR_WIDTH (R181). -/
def execWrWidth (v : Word) (s : State) : Host.Outcome State Fault Refusal := .next (s.writeReg .width v)

/-- WR_HEIGHT (R182). -/
def execWrHeight (v : Word) (s : State) : Host.Outcome State Fault Refusal := .next (s.writeReg .height v)

/-- WR_SRC_ADDR (R183). -/
def execWrSrcAddr (v : Word) (s : State) : Host.Outcome State Fault Refusal := .next (s.writeReg .srcAddr v)

/-- WR_SRC_LEN (R184). -/
def execWrSrcLen (v : Word) (s : State) : Host.Outcome State Fault Refusal := .next (s.writeReg .srcLen v)

/-- WR_DST_ADDR (R185). -/
def execWrDstAddr (v : Word) (s : State) : Host.Outcome State Fault Refusal := .next (s.writeReg .dstAddr v)

/-- WR_OUT_LEN (R187): ignored. -/
def execWrOutLen (v : Word) (s : State) : Host.Outcome State Fault Refusal := .next (s.writeReg .outLen v)

/-- WR_RSVD (R197): ignored. -/
def execWrRsvd (off : BitVec 6) (v : Word) (s : State) : Host.Outcome State Fault Refusal :=
  .next (s.writeReg (.rsvd (off.extractLsb' 2 3)) v)

end Sys2Proof.Machine
end

