-- ==== Sys2Proof/Machine/Dispatch.lean ====
section
/-! DEFINITION. The meaning of each host access: one arm per constructor of `Instr`, each one direct call. -/

namespace Sys2Proof.Machine

def exec (i : Instr) (s : State) : Host.Outcome State Fault Refusal :=
  match i with
  -- commands: writes to CMD
  | .nop mode ign => Sys2Proof.Machine.execNop mode ign s
  | .encodeTc ign => Sys2Proof.Machine.execEncodeTc ign s
  | .encodeMono ign => Sys2Proof.Machine.execEncodeMono ign s
  -- register writes
  | .wrStatus v => Sys2Proof.Machine.execWrStatus v s
  | .wrWidth v => Sys2Proof.Machine.execWrWidth v s
  | .wrHeight v => Sys2Proof.Machine.execWrHeight v s
  | .wrSrcAddr v => Sys2Proof.Machine.execWrSrcAddr v s
  | .wrSrcLen v => Sys2Proof.Machine.execWrSrcLen v s
  | .wrDstAddr v => Sys2Proof.Machine.execWrDstAddr v s
  | .wrOutLen v => Sys2Proof.Machine.execWrOutLen v s
  | .wrRsvd off v => Sys2Proof.Machine.execWrRsvd off v s
  -- register reads
  | .rdCmd d => Sys2Proof.Machine.execRdCmd d s
  | .rdStatus d => Sys2Proof.Machine.execRdStatus d s
  | .rdWidth d => Sys2Proof.Machine.execRdWidth d s
  | .rdHeight d => Sys2Proof.Machine.execRdHeight d s
  | .rdSrcAddr d => Sys2Proof.Machine.execRdSrcAddr d s
  | .rdSrcLen d => Sys2Proof.Machine.execRdSrcLen d s
  | .rdDstAddr d => Sys2Proof.Machine.execRdDstAddr d s
  | .rdOutLen d => Sys2Proof.Machine.execRdOutLen d s
  | .rdRsvd off d => Sys2Proof.Machine.execRdRsvd off d s

end Sys2Proof.Machine
end

