-- ==== Sys2Proof/Machine/Truecolor.lean ====
section
/-!
DEFINITION. The pixel accessors (20_memory.md R53) and the truecolor encoder (41_truecolor.md), pure functions of system
memory and the latched record.
-/

namespace Sys2Proof.Machine

/-- `PixAddr(x, y) = L.src + 4 * (y * L.w + x)` (R53). -/
def pixAddr (l : Latch) (x y : Nat) : Nat := l.src + 4 * (y * l.w + x)

/-- `R(x, y)` (R53). -/
def pixR (m : Memory) (l : Latch) (x y : Nat) : Byte := Memory.read m (pixAddr l x y)

/-- `G(x, y)` (R53). -/
def pixG (m : Memory) (l : Latch) (x y : Nat) : Byte := Memory.read m (pixAddr l x y + 1)

/-- `B(x, y)` (R53). -/
def pixB (m : Memory) (l : Latch) (x y : Nat) : Byte := Memory.read m (pixAddr l x y + 2)

/-- `BGR(x, y)` (R131): the alpha byte is dropped. -/
def bgr (m : Memory) (l : Latch) (x y : Nat) : List Byte := [pixB m l x y, pixG m l x y, pixR m l x y]

/-- `TCRow(y)` (R134). -/
def tcRow (m : Memory) (l : Latch) (y : Nat) : List Byte :=
  concat l.w (fun x => bgr m l x y) ++ zeros (pad4 (rowBytes .tc l.w))

/-- `TCData`, bottom row first (R135). -/
def tcData (m : Memory) (l : Latch) : List Byte := concat l.h fun r => tcRow m l (l.h - 1 - r)

/-- `sizeImageTC(w, h) = 3 * w * h` (R136). -/
def sizeImageTc (w h : Nat) : Nat := 3 * w * h

/-- `EncTC(L)` (R137). -/
def encTc (m : Memory) (l : Latch) : List Byte := hdr .tc l.w l.h (sizeImageTc l.w l.h) ++ tcData m l

end Sys2Proof.Machine
end

