-- ==== Sys2Proof/Machine/Monochrome.lean ====
section
/-!
DEFINITION. The monochrome encoder (42_monochrome.md), pure functions of system memory and the latched record.
-/

namespace Sys2Proof.Machine

/-- `Bit(x, y)` (R150): 1 exactly when the red byte is 0xFF. -/
def pixBit (m : Memory) (l : Latch) (x y : Nat) : Nat := bif pixR m l x y == 0xFF then 1 else 0

/-- `b(x, y)` of R153: the pixel's bit inside the row, 0 past its end. -/
def packedBit (m : Memory) (l : Latch) (x y : Nat) : Nat := if x < l.w then pixBit m l x y else 0

/-- `PackByte(k, y)` (R153): pixel `8k + j` at bit `7 - j`. -/
def packByte (m : Memory) (l : Latch) (k y : Nat) : Byte :=
  BitVec.ofNat 8 ((List.range 8).map fun j => packedBit m l (8 * k + j) y * 2 ^ (7 - j)).sum

/-- `MonoRow(y)` (R155). -/
def monoRow (m : Memory) (l : Latch) (y : Nat) : List Byte :=
  concat (rowBytes .mono l.w) (fun k => [packByte m l k y]) ++ zeros (pad4 (rowBytes .mono l.w))

/-- `MonoData`, bottom row first (R156). -/
def monoData (m : Memory) (l : Latch) : List Byte := concat l.h fun r => monoRow m l (l.h - 1 - r)

/-- `PAL`: black, then white (R157). -/
def pal : List Byte := [0x00, 0x00, 0x00, 0x00, 0xFF, 0xFF, 0xFF, 0x00]

/-- `sizeImageMono(w, h) = ceil(w * h / 8)` (R159). -/
def sizeImageMono (w h : Nat) : Nat := ceilDiv (w * h) 8

/-- `EncMono(L)` (R160). -/
def encMono (m : Memory) (l : Latch) : List Byte := hdr .mono l.w l.h (sizeImageMono l.w l.h) ++ pal ++ monoData m l

end Sys2Proof.Machine
end

