-- ==== Sys2Proof/Machine/Engine.lean ====
section
/-!
DEFINITION. The engine's completion step (43_commands.md R195, R196) and reset (70_reset_and_hazards.md R250, R251).
-/

namespace Sys2Proof.Machine

/-- `Encode(L)` (R196): the file, read from the source region as memory stands when the step is taken (R254). -/
def encodeFile (m : Memory) (l : Latch) : List Byte :=
  match l.mode with
  | .tc => encTc m l
  | .mono => encMono m l

/-- `EngineComplete` is enabled (R195, R52): BUSY, and memory admits the whole source region for reading and the whole
destination region for writing. -/
def State.engineEnabled (s : State) : Bool :=
  decide (s.phase = .busy) && s.plat.admitsAll s.latch.src s.latch.len .read &&
    s.plat.admitsAll s.latch.dst s.latch.total .write

/-- `EngineComplete` (R195). `L` is left as it is. -/
def State.engineComplete (s : State) : State :=
  { s with
    mem := Memory.writeBytes s.mem s.latch.dst (encodeFile s.mem s.latch)
    outLen := BitVec.ofNat 32 s.latch.total
    status := statusOfDone
    phase := .idle }

/-- The engine's turn: its step where enabled; where it is IDLE or stuck (R52) it has none, and nothing changes
(assumption 5). -/
def State.engineTurn (s : State) : State := if s.engineEnabled then s.engineComplete else s

/-- The bytes a reset leaves in the destination region of an abandoned command: one draw each, no law (R251). -/
def drawBytes (first n : Nat) : List Byte := (List.range n).map fun i => Config.draw (first + i)

/-- Reset (R250, R251). The registers, the phase and `L` take their reset values. Memory is unchanged, but for the
destination region of a running command, each byte of which becomes a draw. -/
def State.takeReset (s : State) : State :=
  let r := { State.resetOn s.plat with mem := s.mem, inbox := s.inbox, response := s.response, draws := s.draws }
  match s.phase with
  | .idle => r
  | .busy =>
    { r with
      mem := Memory.writeBytes s.mem s.latch.dst (drawBytes s.draws s.latch.total)
      draws := s.draws + s.latch.total }

end Sys2Proof.Machine
end

