-- ==== Sys2Proof/Machine/HostMemory.lean ====
section
/-!
DEFINITION. What the host does to system memory beside the block: `MEMW`, `MEMR` and `FENCE` (30_encoding.md R82), with the
host duties R255 and R256 of 70_reset_and_hazards.md as model faults.
-/

namespace Sys2Proof.Machine

/-- The host action on `[a, a + n)` touches the source region of a command whose interval is open (R255). -/
def State.meetsOpenSource (s : State) (a n : Nat) : Bool := s.openCmds.any fun l => regionsMeet a n l.src l.len

/-- The host action on `[a, a + n)` touches the destination region of a command whose interval is open (R256). -/
def State.meetsOpenDest (s : State) (a n : Nat) : Bool := s.openCmds.any fun l => regionsMeet a n l.dst l.total

/-- `MEMW a, bs` (R82): the host writes bytes to system memory, in one step. The order of the four checks is a DESIGN
CHOICE (assumption 7, safe): the spec gives none where one action meets several of them. -/
def hostMemWrite (a : Nat) (bs : List Byte) (s : State) : Host.Outcome State Fault Refusal :=
  if !inAddrSpace a bs.length then .fault .hostOutsideMemory
  else if s.plat.windowMeets a bs.length then .refused .memoryActionInWindow
  else if s.meetsOpenSource a bs.length then .fault .srcWriteBusy
  else if s.meetsOpenDest a bs.length then .fault .dstAccessBusy
  else .next { s with mem := Memory.writeBytes s.mem a bs, response := .none }

/-- `MEMR a, n` (R82): the host reads `n` bytes of system memory, in one step. The order of the three checks is a DESIGN
CHOICE (assumption 7, safe), as in `hostMemWrite`. -/
def hostMemRead (a n : Nat) (s : State) : Host.Outcome State Fault Refusal :=
  if !inAddrSpace a n then .fault .hostOutsideMemory
  else if s.plat.windowMeets a n then .refused .memoryActionInWindow
  else if s.meetsOpenDest a n then .fault .dstAccessBusy
  else .next { s with response := .bytes (Memory.readBytes s.mem a n) }

/-- `FENCE` (R82): memory is sequentially consistent in the model (R61, U11), so it changes nothing (R62). -/
def hostFence (s : State) : Host.Outcome State Fault Refusal := .next { s with response := .none }

end Sys2Proof.Machine
end

