-- ==== Sys2Proof/Machine/Events.lean ====
section
/-!
DEFINITION. Fetching a host access from the bus, and what each event of the inbox does.
-/

namespace Sys2Proof.Machine

/-- The instruction a window access stands for: refused unless it is 32 bits wide (R262), then the decoder's answer on
its access word (R70), refused where the offset is not a multiple of 4 (R262). An access with both faults is refused
for its width: DESIGN CHOICE of a name (assumption 7, safe). -/
def fetchAccess (a : BusAccess) : Except Refusal Instr :=
  if a.width = 32 then
    match decodeWord (accessWord a.write a.off a.data) with
    | .ok i => .ok i
    | .error _ => .error .accessAlignment
  else .error .accessWidth

/-- A host access to the window: the decoded instruction runs, from a state where the last response is gone. -/
def runAccess (a : BusAccess) (s : State) : Host.Outcome State Fault Refusal :=
  match fetchAccess a with
  | .ok i => exec i { s with response := .none }
  | .error r => .refused r

/-- A host bus access by address (R23): it reaches the block where its address lies in the window; elsewhere it is refused,
whatever its width (assumptions 7, 13). -/
def runBus (write : Bool) (addr : Word) (width : Nat) (data : Word) (s : State) : Host.Outcome State Fault Refusal :=
  match s.plat.windowOffset addr with
  | some off => runAccess ⟨write, off, width, data⟩ s
  | none => .refused .outsideWindow

/-- The response is a register value `v` with `(v & mask) = value` (`POLL`, R82). -/
def pollHit (mask value : Word) : Response → Bool
  | .word v => v &&& mask = value
  | _ => false

/-- `POLL` (R82): one read. Where its value does not match, the host will read again, and the scheduler gives the engine
a turn before that (R261; assumption 10). -/
def runPoll (off : BitVec 6) (mask value : Word) (s : State) : Host.Outcome State Fault Refusal :=
  match runAccess ⟨false, off, 32, 0⟩ s with
  | .next t => .next (if pollHit mask value t.response then t else { t with inbox := .engine :: .poll off mask value :: t.inbox })
  | .fault f => .fault f
  | .refused r => .refused r

/-- What an event does. -/
def runEvent (e : Event) (s : State) : Host.Outcome State Fault Refusal :=
  match e with
  | .access a => runAccess a s
  | .bus write addr width data => runBus write addr width data s
  | .poll off mask value => runPoll off mask value s
  | .memWrite a bs => hostMemWrite a bs s
  | .memRead a n => hostMemRead a n s
  | .fence => hostFence s
  | .engine => .next s.engineTurn
  | .reset => .next s.takeReset

/-- The window access that the number `w` of an `nbits`-bit table row stands for. A number above the 39 bits of an access
word is no 32-bit access, as the decoder says too. -/
def tableAccess (nbits w : Nat) : BusAccess :=
  let v := w % 2 ^ nbits
  { write := v / 2 ^ 38 % 2 = 1
    off := BitVec.ofNat 6 (v / 2 ^ 32)
    width := if v % 2 ^ 40 < 2 ^ 39 then 32 else 40
    data := BitVec.ofNat 32 v }

end Sys2Proof.Machine
end

