-- ==== Sys2Proof/Machine/Step.lean ====
section
/-!
DEFINITION. One step of the machine: the next event of the inbox; the engine's turn where the inbox is empty
(assumption 2).
-/

namespace Sys2Proof.Machine

/-- One step (R6): one host action, one turn of the engine, or reset. -/
def step (s : State) : Host.Outcome State Fault Refusal :=
  match s.inbox with
  | [] => .next s.engineTurn
  | e :: rest => runEvent e { s with inbox := rest }

/-- `s` with the access of a table row as the next event of its inbox (assumption 2). -/
def State.withFetchWord (s : State) (nbits w : Nat) : State := { s with inbox := .access (tableAccess nbits w) :: s.inbox }

end Sys2Proof.Machine
end

