-- ==== Sys2Proof/Machine/Script.lean ====
section
/-!
DEFINITION. Host scripts (30_encoding.md R82, R83): the statements and pseudo-instructions, and the events they expand into.
-/

namespace Sys2Proof.Machine

/-- A line of a host script (R82, R83). -/
inductive Stmt where
  /-- `WR <reg>, <value>` -/
  | wr (r : Reg) (v : Word)
  /-- `RD <reg>` -/
  | rd (r : Reg)
  /-- `POLL <reg>, <mask>, <value>` -/
  | poll (r : Reg) (mask value : Word)
  /-- `MEMW <addr>, [b0, b1, ...]` -/
  | memw (addr : Nat) (bytes : List Byte)
  /-- `MEMR <addr>, <n>` -/
  | memr (addr n : Nat)
  /-- `FENCE` -/
  | fence
  /-- `NOP` -/
  | nop
  /-- `ENCODE.TC` -/
  | encodeTc
  /-- `ENCODE.MONO` -/
  | encodeMono
  /-- `WAIT` -/
  | wait
  /-- `SETUP <w>, <h>, <src>, <len>, <dst>` -/
  | setup (w h src len dst : Word)
  deriving DecidableEq, Repr

/-- The window access of `WR` (DIR = 1) on a register (R82). -/
def wrEvent (r : Reg) (v : Word) : Event := .access ⟨true, r.offset, 32, v⟩

/-- The window access of `RD` (DIR = 0) on a register (R82). -/
def rdEvent (r : Reg) : Event := .access ⟨false, r.offset, 32, 0⟩

/-- The events a line stands for (R82, R83). -/
def Stmt.events : Stmt → List Event
  | .wr r v => [wrEvent r v]
  | .rd r => [rdEvent r]
  | .poll r mask value => [.poll r.offset mask value]
  | .memw a bs => [.memWrite a bs]
  | .memr a n => [.memRead a n]
  | .fence => [.fence]
  | .nop => [wrEvent .cmd 0x00000000]
  | .encodeTc => [wrEvent .cmd 0x00000001]
  | .encodeMono => [wrEvent .cmd 0x00000003]
  | .wait => [.poll Reg.status.offset 0x00000001 0x00000000]
  | .setup w h src len dst =>
    [wrEvent .width w, wrEvent .height h, wrEvent .srcAddr src, wrEvent .srcLen len, wrEvent .dstAddr dst]

/-- The events of a whole script. -/
def scriptEvents (p : List Stmt) : List Event := p.flatMap Stmt.events

end Sys2Proof.Machine
end

