-- ==== Sys2Proof/Safety.lean ====
section
/-!
DEFINITION. What counts as a safe run, and the invariant the machine keeps (10_state.md R33, R34, R36).
-/

namespace Sys2Proof.Machine

/-- The five values STATUS can hold (R25). -/
def legalStatus (v : Word) : Bool := [0x00000000, 0x00000001, 0x00000002, 0x00000014, 0x00000024].contains v

/-- What an accepted command guarantees of its latched record (R34, R51, R137, R160, R190): positive signed dimensions,
the declared length and the file length the exact ones, both regions inside the address space, and no shared byte. -/
structure Latch.Valid (l : Latch) : Prop where
  wPos : 1 ≤ l.w
  wMax : l.w ≤ 2 ^ 31 - 1
  hPos : 1 ≤ l.h
  hMax : l.h ≤ 2 ^ 31 - 1
  len_eq : l.len = 4 * l.w * l.h
  total_eq : l.total = fileSize l.mode l.w l.h
  total_fits : l.total ≤ Config.maxTotal
  src_fits : l.src + l.len ≤ Config.addrSpace
  dst_fits : l.dst + l.total ≤ Config.addrSpace
  disjoint : regionsMeet l.src l.len l.dst l.total = false

/-- The invariant of the machine. -/
structure State.Inv (s : State) : Prop where
  /-- system memory is in canonical form -/
  mem_wf : Memory.wf s.mem = true
  /-- STATUS is one of its five values (R25) -/
  status_legal : legalStatus s.status = true
  /-- STATUS.BUSY agrees with the phase (R33) -/
  busy_iff : statusBusy s.status = true ↔ s.phase = .busy
  /-- OUT_LEN ≠ 0 only when DONE = 1 (R36) -/
  outLen_done : s.outLen ≠ 0 → statusDone s.status = true
  /-- while BUSY the latched record is one an accepted command left (R34) -/
  latch_valid : s.phase = .busy → s.latch.Valid
  /-- while BUSY the running command's interval of R255 and R256 is open -/
  latch_open : s.phase = .busy → s.latch ∈ s.openCmds

/-! ## The conditions of a START in the spec's own words, over the register values -/

/-- The CMD write that starts a command in the given mode (R192, R193). -/
def startInstr : Mode → BitVec 30 → Instr
  | .tc, ign => .encodeTc ign
  | .mono, ign => .encodeMono ign

/-- No cause of InvalidBuffer holds (R221): positive signed width and height, and SRC_LEN = 4 * w * h exactly. -/
def State.BufferValid (s : State) : Prop :=
  0 < s.width.toInt ∧ 0 < s.height.toInt ∧ (s.srcLen.toNat : Int) = 4 * s.width.toInt * s.height.toInt

/-- The file length of the command the registers describe, in a mode (R104). -/
def State.startTotal (s : State) (m : Mode) : Nat := fileSize m s.width.toInt.toNat s.height.toInt.toNat

/-- No cause of Range holds (R222): the file length fits 32 bits and neither region wraps. -/
def State.RangeValid (s : State) (m : Mode) : Prop :=
  s.startTotal m ≤ 2 ^ 32 - 1 ∧ s.srcAddr.toNat + s.srcLen.toNat ≤ 2 ^ 32 ∧ s.dstAddr.toNat + s.startTotal m ≤ 2 ^ 32

/-- The source and the destination region of the command share no byte (R68). -/
def State.RegionsApart (s : State) (m : Mode) : Prop :=
  ∀ x, ¬ ((s.srcAddr.toNat ≤ x ∧ x < s.srcAddr.toNat + s.srcLen.toNat) ∧
    (s.dstAddr.toNat ≤ x ∧ x < s.dstAddr.toNat + s.startTotal m))

/-- The record `L` of the command (R191, R73). -/
def State.startLatch (s : State) (m : Mode) : Latch where
  mode := m
  w := s.width.toInt.toNat
  h := s.height.toInt.toNat
  src := s.srcAddr.toNat
  len := s.srcLen.toNat
  dst := s.dstAddr.toNat
  total := s.startTotal m

/-- Memory admits a command's whole source region for reading and its whole destination region for writing (R52). -/
def Latch.Admitted (l : Latch) (p : Platform) : Prop :=
  (∀ a, l.src ≤ a → a < l.src + l.len → p.admits a .read = true) ∧
    (∀ a, l.dst ≤ a → a < l.dst + l.total → p.admits a .write = true)

/-- The next event is the window access `a`, given by its offset or by the host address that has this offset (R23). -/
def State.NextAccess (s : State) (a : BusAccess) : Prop :=
  s.inbox.head? = some (.access a) ∨
    ∃ addr, s.inbox.head? = some (.bus a.write addr a.width a.data) ∧ s.plat.windowOffset addr = some a.off

/-- `n` steps from `s`. -/
def runSteps (n : Nat) (s : State) : Host.Outcome State Fault Refusal :=
  match n with
  | 0 => .next s
  | k + 1 =>
    match step s with
    | .next t => runSteps k t
    | .fault f => .fault f
    | .refused r => .refused r

/-- The next `n` steps from `s` meet no fault and no refusal: only such a run can carry a claim (R16, R210). -/
def SafeFor (n : Nat) (s : State) : Prop := ∃ t, runSteps n s = .next t

end Sys2Proof.Machine
end

