-- ==== Sys2Proof/Certificates/Slice0/Obligations.lean ====
section
/-!
DEFINITION. The statements for the provers, rule by rule of spec/. A clause about a field of the model's own (`inbox`,
`response`, `openCmds`, `draws`, `plat`) is the model's, not the spec's: NOTES.md names the assumption.
-/

open Sys2Proof Sys2Proof.Machine

/-! ## Encodings -/

/-- R70: an access word is DIR, OFF and DATA; every word-aligned one matches exactly one row of the opcode table, which
is the row of the instruction it decodes to; a misaligned one matches none and is rejected; an access of another width
is refused (misaligned too, by either name: their order is assumption 7 and not stated here). -/
def Obligations.AlignedAccessMatchesExactlyOneRow : Prop :=
  ∀ (write : Bool) (off : BitVec 6) (data : Word),
    (accessWord write off data).toNat = (if write then 2 ^ 38 else 0) + off.toNat * 2 ^ 32 + data.toNat ∧
    (off.toNat % 4 = 0 →
      ∃ r i, opcodeTable.filter (fun r => r.applies (accessWord write off data)) = [r] ∧
        decodeWord (accessWord write off data) = .ok i ∧ i.mnemonic = r.mnemonic ∧ i.isWrite = write) ∧
    (off.toNat % 4 ≠ 0 →
      opcodeTable.filter (fun r => r.applies (accessWord write off data)) = [] ∧
        fetchAccess ⟨write, off, 32, data⟩ = .error .accessAlignment) ∧
    (∀ width, width ≠ 32 →
      (off.toNat % 4 = 0 → fetchAccess ⟨write, off, width, data⟩ = .error .accessWidth) ∧
      ∃ r, fetchAccess ⟨write, off, width, data⟩ = .error r ∧ (r = .accessWidth ∨ r = .accessAlignment))

/-- R71, R72: every command word decodes into exactly one command, by START and MODE; IGN is kept and never examined. -/
def Obligations.CommandDecodeIsTotal : Prop :=
  ∀ (c : Word),
    decodeWord (accessWord true 0x00 c) =
      .ok (match c.getLsbD 0, c.getLsbD 1 with
          | false, mode => .nop mode (c.extractLsb' 2 30)
          | true, false => .encodeTc (c.extractLsb' 2 30)
          | true, true => .encodeMono (c.extractLsb' 2 30))

/-- R75: a command word with any IGN bit set acts exactly as the same word with them clear. -/
def Obligations.IgnoredCommandBitsHaveNoEffect : Prop :=
  ∀ (c : Word) (s : State),
    runAccess ⟨true, 0x00, 32, c⟩ s = runAccess ⟨true, 0x00, 32, c &&& 0x00000003⟩ s

/-- R70 to R72: decode after encode, all instructions, over access words and over bytes (the five-byte frame: assumption 11;
DATA of a read kept: assumption 12): no operand bit is lost. -/
def Obligations.DecodeOfEncodeIsIdentity : Prop :=
  ∀ (i : Instr), i.wf = true → decodeWord (encode i) = .ok i ∧ decode (encodeBytes i) = .ok i

/-- Encode after decode: an access word (or five bytes) that decodes has exactly one reading, a well-formed instruction
whose encoding is that word. -/
def Obligations.EncodeOfDecodeIsIdentity : Prop :=
  (∀ (a : AccessWord) (i : Instr), decodeWord a = .ok i → i.wf = true ∧ encode i = a) ∧
    (∀ (bs : List Byte) (i : Instr), decode bs = .ok i → i.wf = true ∧ encodeBytes i = bs)

/-- The access words that 95_test_vectors.md section 2.5 lists decode to the rows it names. -/
def Obligations.ListedAccessWordsDecode : Prop :=
  decodeWord 0x4000000000 = .ok (.nop false 0) ∧
  decodeWord 0x4000000002 = .ok (.nop true 0) ∧
  decodeWord 0x4000000001 = .ok (.encodeTc 0) ∧
  decodeWord 0x4000000003 = .ok (.encodeMono 0) ∧
  decodeWord 0x40FFFFFFFD = .ok (.encodeTc 0x3FFFFFFF) ∧
  decodeWord 0x4800000008 = .ok (.wrWidth 8) ∧
  decodeWord 0x0400000000 = .ok (.rdStatus 0) ∧
  decodeWord 0x1C00000000 = .ok (.rdOutLen 0) ∧
  decodeWord 0x6000000000 = .ok (.wrRsvd 0x20 0) ∧
  decodeWord 0x3C00000000 = .ok (.rdRsvd 0x3C 0) ∧
  decodeWord 0x0600000000 = .error .offsetNotAligned

/-- A step whose next event is a window access runs exactly the instruction its access word decodes to, from the state
with the event taken off and the last response gone (assumptions 2, 9); the same for `withFetchWord`. -/
def Obligations.StepRunsTheDecodedAccess : Prop :=
  (∀ (s : State) (a : BusAccess) (rest : List Event) (i : Instr),
    s.inbox = .access a :: rest → a.width = 32 → decodeWord (accessWord a.write a.off a.data) = .ok i →
      step s = exec i { s with inbox := rest, response := .none }) ∧
  (∀ (s : State) (nbits w : Nat) (i : Instr),
    decodeTableWord nbits w = some i → step (s.withFetchWord nbits w) = exec i { s with response := .none })

/-- R23: the window is the 64 bytes at `REG_BASE`: a bus access to `REG_BASE + off` is the window access at `off`, and a
bus access to any other host address does not reach the block (the refusal is the model's, assumption 13; 32-bit host
addresses, and the sum modulo 2^32, are assumption 17). -/
def Obligations.WindowIsSixtyFourBytesAtRegBase : Prop :=
  ∀ (s : State) (rest : List Event) (write : Bool) (addr : Word) (width : Nat) (data : Word),
    s.inbox = .bus write addr width data :: rest →
      (∀ off : BitVec 6, addr = s.plat.regBase + off.setWidth 32 →
        step s = step { s with inbox := .access ⟨write, off, width, data⟩ :: rest }) ∧
      ((∀ off : BitVec 6, addr ≠ s.plat.regBase + off.setWidth 32) → step s = .refused .outsideWindow)

/-- R262: a window access that is not 32 bits wide, or whose offset is not a multiple of 4, is refused, and no run that
contains it goes on. -/
def Obligations.AccessOutsideInterfaceIsRefused : Prop :=
  ∀ (s : State) (a : BusAccess) (rest : List Event) (n : Nat),
    s.inbox = .access a :: rest → (a.width ≠ 32 ∨ a.off.toNat % 4 ≠ 0) →
      (∃ r, step s = .refused r ∧ (r = .accessWidth ∨ r = .accessAlignment)) ∧ ¬ SafeFor (n + 1) s

/-- R57: byte lane k of a register value carries its bits 8k+7 to 8k, and the lanes make the value up again. -/
def Obligations.ByteLanesAreLittleEndian : Prop :=
  ∀ (v : Word) (b0 b1 b2 b3 : Byte),
    (∀ k, k < 4 → (wordBytes v)[k]? = some (v.extractLsb' (8 * k) 8)) ∧
    wordBytes (wordOfLanes b0 b1 b2 b3) = [b0, b1, b2, b3]

/-! ## Register writes and reads -/

/-- R181 to R185: each write to a read-write register stores the value, whatever it is and in either phase, and changes
nothing else: not the latched record, not STATUS, not memory. -/
def Obligations.OperandRegisterWritesStoreTheValue : Prop :=
  ∀ (v : Word) (s : State),
    (decodeWord (accessWord true 0x08 v) = .ok (.wrWidth v) ∧ exec (.wrWidth v) s = .next { s with width := v }) ∧
    (decodeWord (accessWord true 0x0C v) = .ok (.wrHeight v) ∧ exec (.wrHeight v) s = .next { s with height := v }) ∧
    (decodeWord (accessWord true 0x10 v) = .ok (.wrSrcAddr v) ∧ exec (.wrSrcAddr v) s = .next { s with srcAddr := v }) ∧
    (decodeWord (accessWord true 0x14 v) = .ok (.wrSrcLen v) ∧ exec (.wrSrcLen v) s = .next { s with srcLen := v }) ∧
    (decodeWord (accessWord true 0x18 v) = .ok (.wrDstAddr v) ∧ exec (.wrDstAddr v) s = .next { s with dstAddr := v })

/-- R186, R187, R197: writes to STATUS, OUT_LEN and the reserved slots have no effect at all. -/
def Obligations.ReadOnlyRegisterWritesAreIgnored : Prop :=
  ∀ (v : Word) (s : State),
    (decodeWord (accessWord true 0x04 v) = .ok (.wrStatus v) ∧ exec (.wrStatus v) s = .next s) ∧
    (decodeWord (accessWord true 0x1C v) = .ok (.wrOutLen v) ∧ exec (.wrOutLen v) s = .next s) ∧
    (∀ off : BitVec 6, 0x20 ≤ off.toNat → off.toNat % 4 = 0 →
      decodeWord (accessWord true off v) = .ok (.wrRsvd off v) ∧ exec (.wrRsvd off v) s = .next s)

/-- R188: a CMD write with START = 0 changes nothing. -/
def Obligations.NopChangesNothing : Prop :=
  ∀ (c : Word) (mode : Bool) (ign : BitVec 30) (s : State),
    exec (.nop mode ign) s = .next s ∧
    (c.getLsbD 0 = false → ∃ m g, decodeWord (accessWord true 0x00 c) = .ok (.nop m g))

/-- R199, R201 to R207: each read of a register other than STATUS returns its value (0 for CMD and the reserved slots)
and changes nothing else. The DATA of the access is not examined. The field `response` is the model's form of the value
returned (assumption 9). -/
def Obligations.RegisterReadsReturnTheValue : Prop :=
  ∀ (d : Word) (s : State),
    (decodeWord (accessWord false 0x00 d) = .ok (.rdCmd d) ∧ exec (.rdCmd d) s = .next { s with response := .word 0 }) ∧
    (decodeWord (accessWord false 0x08 d) = .ok (.rdWidth d) ∧
      exec (.rdWidth d) s = .next { s with response := .word s.width }) ∧
    (decodeWord (accessWord false 0x0C d) = .ok (.rdHeight d) ∧
      exec (.rdHeight d) s = .next { s with response := .word s.height }) ∧
    (decodeWord (accessWord false 0x10 d) = .ok (.rdSrcAddr d) ∧
      exec (.rdSrcAddr d) s = .next { s with response := .word s.srcAddr }) ∧
    (decodeWord (accessWord false 0x14 d) = .ok (.rdSrcLen d) ∧
      exec (.rdSrcLen d) s = .next { s with response := .word s.srcLen }) ∧
    (decodeWord (accessWord false 0x18 d) = .ok (.rdDstAddr d) ∧
      exec (.rdDstAddr d) s = .next { s with response := .word s.dstAddr }) ∧
    (decodeWord (accessWord false 0x1C d) = .ok (.rdOutLen d) ∧
      exec (.rdOutLen d) s = .next { s with response := .word s.outLen }) ∧
    (∀ off : BitVec 6, 0x20 ≤ off.toNat → off.toNat % 4 = 0 →
      decodeWord (accessWord false off d) = .ok (.rdRsvd off d) ∧
        exec (.rdRsvd off d) s = .next { s with response := .word 0 })

/-- R200: a read of STATUS returns it and clears nothing of the block. That a value with BUSY = 0 closes the host-duty
intervals is the model's record of R255 and R256 (assumption 6); `response` is assumption 9. -/
def Obligations.StatusReadReturnsStatus : Prop :=
  ∀ (d : Word) (s : State),
    decodeWord (accessWord false 0x04 d) = .ok (.rdStatus d) ∧
    exec (.rdStatus d) s =
      .next { s with response := .word s.status, openCmds := if statusBusy s.status then s.openCmds else [] }

/-- R259, R23: two accesses in a row, a write at one offset of the window other than CMD and a read at any offset: the
read returns the new value where both name the same read-write register, and else what a read returned before. (The inbox is assumption
2, `response` is assumption 9.) -/
def Obligations.ReadAfterWriteAcrossTheWindow : Prop :=
  ∀ (s : State) (woff roff : BitVec 6) (v : Word) (rest : List Event),
    woff.toNat % 4 = 0 → roff.toNat % 4 = 0 → woff ≠ 0x00 →
      ∃ t u, runSteps 2 { s with inbox := .access ⟨true, woff, 32, v⟩ :: .access ⟨false, roff, 32, 0⟩ :: rest } = .next t ∧
        step { s with inbox := .access ⟨false, roff, 32, 0⟩ :: rest } = .next u ∧ t.inbox = rest ∧
        t.response =
          (if woff = roff ∧ (woff = 0x08 ∨ woff = 0x0C ∨ woff = 0x10 ∨ woff = 0x14 ∨ woff = 0x18) then .word v
          else u.response)

/-- R83: the five register writes of `SETUP` give the same state in any order. (The inbox is assumption 2,
`response` is assumption 9.) -/
def Obligations.SetupOrderDoesNotMatter : Prop :=
  ∀ (s : State) (w h src len dst : Word) (p : List Event) (rest : List Event),
    p.Perm (Stmt.events (.setup w h src len dst)) →
      runSteps 5 { s with inbox := p ++ rest } =
        .next { s with
          width := w, height := h, srcAddr := src, srcLen := len, dstAddr := dst, inbox := rest, response := .none }

/-- R26 to R30, R35: an operand register changes only by its own write, an access at its offset or at the bus address that
has this offset, or by reset, whatever the step is. -/
def Obligations.OperandRegistersChangeOnlyByTheirWrites : Prop :=
  ∀ (s t : State), step s = .next t →
    (t.width ≠ s.width → s.inbox.head? = some .reset ∨
      ∃ a v, s.NextAccess a ∧ fetchAccess a = .ok (.wrWidth v) ∧ t.width = v) ∧
    (t.height ≠ s.height → s.inbox.head? = some .reset ∨
      ∃ a v, s.NextAccess a ∧ fetchAccess a = .ok (.wrHeight v) ∧ t.height = v) ∧
    (t.srcAddr ≠ s.srcAddr → s.inbox.head? = some .reset ∨
      ∃ a v, s.NextAccess a ∧ fetchAccess a = .ok (.wrSrcAddr v) ∧ t.srcAddr = v) ∧
    (t.srcLen ≠ s.srcLen → s.inbox.head? = some .reset ∨
      ∃ a v, s.NextAccess a ∧ fetchAccess a = .ok (.wrSrcLen v) ∧ t.srcLen = v) ∧
    (t.dstAddr ≠ s.dstAddr → s.inbox.head? = some .reset ∨
      ∃ a v, s.NextAccess a ∧ fetchAccess a = .ok (.wrDstAddr v) ∧ t.dstAddr = v)

/-! ## Commands -/

/-- R192, R191: ENCODE_TC while IDLE, with operands that pass every check: accepted. STATUS becomes BUSY, OUT_LEN 0, `L`
takes the operands, and nothing else of the block or of memory changes. That `openCmds` takes the record is the model's
own mark of the interval of R255 and R256 (assumption 6). -/
def Obligations.TruecolorStartIsAccepted : Prop :=
  ∀ (s : State) (ign : BitVec 30),
    s.phase = .idle → s.BufferValid → s.RangeValid .tc → s.RegionsApart .tc →
      exec (.encodeTc ign) s =
        .next { s with
          status := 0x00000001, outLen := 0, phase := .busy, latch := s.startLatch .tc,
          openCmds := s.startLatch .tc :: s.openCmds }

/-- R193, R191: the same for ENCODE_MONO (assumption 6 too). -/
def Obligations.MonochromeStartIsAccepted : Prop :=
  ∀ (s : State) (ign : BitVec 30),
    s.phase = .idle → s.BufferValid → s.RangeValid .mono → s.RegionsApart .mono →
      exec (.encodeMono ign) s =
        .next { s with
          status := 0x00000001, outLen := 0, phase := .busy, latch := s.startLatch .mono,
          openCmds := s.startLatch .mono :: s.openCmds }

/-- R221, R224, R223: a START while IDLE raises InvalidBuffer exactly when its operands are no valid buffer, whatever
Range would say; the state afterwards differs in STATUS and OUT_LEN only. -/
def Obligations.InvalidBufferIsRaisedExactly : Prop :=
  ∀ (s : State) (m : Mode) (ign : BitVec 30), s.phase = .idle →
    (¬ s.BufferValid → exec (startInstr m ign) s = .next { s with status := 0x00000014, outLen := 0 }) ∧
    (s.BufferValid → ∀ t, exec (startInstr m ign) s = .next t → t.status ≠ 0x00000014)

/-- R222, R224: a START while IDLE raises Range exactly when the buffer is valid and the file length or a region does not
fit; the state afterwards differs in STATUS and OUT_LEN only. -/
def Obligations.RangeIsRaisedExactly : Prop :=
  ∀ (s : State) (m : Mode) (ign : BitVec 30), s.phase = .idle →
    (s.BufferValid → ¬ s.RangeValid m → exec (startInstr m ign) s = .next { s with status := 0x00000024, outLen := 0 }) ∧
    (¬ s.BufferValid ∨ s.RangeValid m → ∀ t, exec (startInstr m ign) s = .next t → t.status ≠ 0x00000024)

/-- R68, R226: a START whose operands pass both checks and whose regions share a byte is the model fault OVERLAP, and a
START raises it in no other case. -/
def Obligations.OverlapFaultsExactly : Prop :=
  ∀ (s : State) (m : Mode) (ign : BitVec 30),
    exec (startInstr m ign) s = .fault .overlap ↔
      s.phase = .idle ∧ s.BufferValid ∧ s.RangeValid m ∧ ¬ s.RegionsApart m

/-- R194: a START while BUSY is ignored: nothing changes, nothing is queued. -/
def Obligations.StartWhileBusyIsIgnored : Prop :=
  ∀ (s : State) (m : Mode) (ign : BitVec 30), s.phase = .busy → exec (startInstr m ign) s = .next s

/-- R190: the example of the rule, for every state: a buffer one pixel wide and 2^30 - 1 high is a valid buffer and out
of range in both modes. -/
def Obligations.TallestOneWideImageIsOutOfRange : Prop :=
  ∀ (s : State) (m : Mode) (ign : BitVec 30), s.phase = .idle → s.width = 1 → s.height = 0x3FFFFFFF → s.srcLen = 0xFFFFFFFC →
    s.startTotal .tc = 2 ^ 32 + 50 ∧ s.startTotal .mono = 2 ^ 32 + 58 ∧
      exec (startInstr m ign) s = .next { s with status := 0x00000024, outLen := 0 }

/-- R35, R31, R33, R34, R225: STATUS, OUT_LEN, the phase and `L` change only by a START acted on while IDLE, by the
engine's completion, or by reset. That completion leaves `L` as it is, is assumption 15. -/
def Obligations.BlockStateChangesOnlyByStartCompletionOrReset : Prop :=
  ∀ (s t : State), step s = .next t →
    (t.status ≠ s.status ∨ t.outLen ≠ s.outLen ∨ t.phase ≠ s.phase ∨ t.latch ≠ s.latch) →
      (s.phase = .idle ∧ ∃ a m ign, s.NextAccess a ∧ fetchAccess a = .ok (startInstr m ign)) ∨
      (s.phase = .busy ∧ s.latch.Admitted s.plat ∧ (s.inbox = [] ∨ s.inbox.head? = some .engine) ∧
        t.status = 0x00000002 ∧ t.phase = .idle ∧ t.latch = s.latch) ∨
      (s.inbox.head? = some .reset ∧ t.status = 0x00000000 ∧ t.outLen = 0 ∧ t.phase = .idle)

/-! ## The engine -/

/-- R195: the engine's step is enabled exactly while BUSY with memory admitted for the whole source and destination region
(else the engine is stuck), and then its turn completes the command: the destination region holds the file, every other
byte reads as before, OUT_LEN is the file length, STATUS is DONE, the phase IDLE, and nothing else changes. That `L` keeps
its record is assumption 15, that the interval of R255 and R256 stays open (`openCmds`) is assumption 6. -/
def Obligations.EngineCompletesTheCommand : Prop :=
  ∀ (s : State) (rest : List Event),
    (s.engineEnabled = true ↔ s.phase = .busy ∧ s.latch.Admitted s.plat) ∧
    (s.Inv → s.phase = .busy → s.latch.Admitted s.plat →
      ∃ t, step { s with inbox := .engine :: rest } = .next t ∧
        (encodeFile s.mem s.latch).length = s.latch.total ∧
        (∀ i, i < s.latch.total → (encodeFile s.mem s.latch)[i]? = some (Memory.read t.mem (s.latch.dst + i))) ∧
        (∀ a, (a < s.latch.dst ∨ s.latch.dst + s.latch.total ≤ a) → Memory.read t.mem a = Memory.read s.mem a) ∧
        t.outLen.toNat = s.latch.total ∧
        t = { s with mem := t.mem, outLen := t.outLen, status := 0x00000002, phase := .idle, inbox := rest })

/-- R52: where memory does not admit a byte the running command needs, the engine is stuck; that a turn it is given then is
a step that changes nothing is the model's form of it (assumption 5). -/
def Obligations.EngineIsStuckWithoutAdmittedMemory : Prop :=
  ∀ (s : State) (rest : List Event), s.phase = .busy → ¬ s.latch.Admitted s.plat →
    step { s with inbox := .engine :: rest } = .next { s with inbox := rest }

/-- R52, R194, R198: while a command runs, no step but the engine's completion or reset ends it: the phase stays BUSY,
and STATUS, OUT_LEN and the latched record stay as they are. A stuck command therefore stays BUSY until reset. -/
def Obligations.OnlyCompletionOrResetEndsACommand : Prop :=
  ∀ (s t : State), step s = .next t → s.phase = .busy → s.inbox.head? ≠ some .reset →
    (t.phase = .busy ∧ t.latch = s.latch ∧ t.status = s.status ∧ t.outLen = s.outLen) ∨
    (s.latch.Admitted s.plat ∧ (s.inbox = [] ∨ s.inbox.head? = some .engine) ∧ t.phase = .idle ∧ t.status = 0x00000002)

/-- R261, R83: while BUSY with memory admitted, `WAIT` ends: after at most three steps the host has read DONE. The turn
the engine gets between two reads is the model's form of weak fairness (assumption 10). `response` is
assumption 9. -/
def Obligations.WaitEndsWithDone : Prop :=
  ∀ (s : State) (rest : List Event), s.Inv → s.phase = .busy → s.latch.Admitted s.plat →
    ∃ t, runSteps 3 { s with inbox := Stmt.events .wait ++ rest } = .next t ∧
      t.response = .word 0x00000002 ∧ t.phase = .idle ∧ t.inbox = rest ∧ t.outLen.toNat = s.latch.total

/-- R254, R255, R251: while a command runs, no step that answers a next state changes a byte of its source region: not a
host write, which faults, not the engine's completion, not reset. So the engine reads what the region held at
acceptance. -/
def Obligations.SourceBytesStayWhileACommandRuns : Prop :=
  ∀ (s t : State) (a : Nat), s.Inv → s.phase = .busy → step s = .next t → s.latch.src ≤ a → a < s.latch.src + s.latch.len →
    Memory.read t.mem a = Memory.read s.mem a

/-- R34: while IDLE the contents of `L` have no effect on a step and cannot be observed: from two states that differ in `L`
alone, a step answers the same, but for `L` itself, and the same `L` too where a command starts. -/
def Obligations.LatchIsUnobservableWhileIdle : Prop :=
  ∀ (s : State) (l : Latch), s.phase = .idle →
    match step s with
    | .next t => ∃ u, step { s with latch := l } = .next u ∧ u = { t with latch := u.latch } ∧ (t.phase = .busy → u = t)
    | .fault f => step { s with latch := l } = .fault f
    | .refused r => step { s with latch := l } = .refused r

/-- R69, R50: `MemAdmit` is false outside the address space and at every address of the block's own window, so a command
whose region reaches such an address is stuck. (That the sum is modulo 2^32 is assumption 17,
the list of ranges assumption 1.) -/
def Obligations.MemAdmitExcludesTheWindow : Prop :=
  ∀ (p : Platform) (d : Dir) (l : Latch),
    (∀ a, 2 ^ 32 ≤ a → p.admits a d = false) ∧
    (∀ off : BitVec 6, p.admits (p.regBase + off.setWidth 32).toNat d = false) ∧
    (∀ off : BitVec 6, l.dst ≤ (p.regBase + off.setWidth 32).toNat →
      (p.regBase + off.setWidth 32).toNat < l.dst + l.total → ¬ l.Admitted p) ∧
    (∀ off : BitVec 6, l.src ≤ (p.regBase + off.setWidth 32).toNat →
      (p.regBase + off.setWidth 32).toNat < l.src + l.len → ¬ l.Admitted p)

/-! ## The file -/

/-- R101 to R104, R132, R133, R152, R154: the size functions, and what the rules derive of them. -/
def Obligations.SizeFunctionsAreTheSpecs : Prop :=
  ∀ (w h n : Nat), 1 ≤ w →
    (pad4 n = (4 - n % 4) % 4 ∧ (n + pad4 n) % 4 = 0 ∧ (pad4 n = 0 ↔ n % 4 = 0)) ∧
    (offBits .tc = 54 ∧ offBits .mono = 62) ∧
    (rowBytes .tc w = 3 * w ∧ rowBytes .mono w = (w + 7) / 8) ∧
    (∀ m, stride m w = rowBytes m w + pad4 (rowBytes m w) ∧ stride m w % 4 = 0 ∧ 4 ≤ stride m w ∧
      fileSize m w h = offBits m + h * stride m w) ∧
    (stride .tc w = (3 * w + 3) / 4 * 4 ∧ stride .mono w = 4 * ((w + 31) / 32))

/-- R105 to R116: the header is 54 bytes and each field, read as little-endian bytes at its offset, has its value. -/
def Obligations.HeaderFieldsHaveTheirValues : Prop :=
  ∀ (m : Mode) (w h z : Nat), w < 2 ^ 31 → h < 2 ^ 31 → z < 2 ^ 32 → fileSize m w h < 2 ^ 32 →
    let field (off n : Nat) : Nat := bytesToNat (((hdr m w h z).drop off).take n)
    (hdr m w h z).length = 54 ∧ (hdr m w h z).take 2 = [0x42, 0x4D] ∧
    field 2 4 = fileSize m w h ∧ field 6 2 = 0 ∧ field 8 2 = 0 ∧ field 10 4 = offBits m ∧
    field 14 4 = 40 ∧ field 18 4 = w ∧ field 22 4 = h ∧ field 26 2 = 1 ∧
    field 28 2 = (match m with | .tc => 24 | .mono => 1) ∧ field 30 4 = 0 ∧ field 34 4 = z ∧
    field 38 4 = 0 ∧ field 42 4 = 0 ∧ field 46 4 = 0 ∧ field 50 4 = 0

/-- R119: for every accepted command, bytes 2 to 5 of the file in memory hold the file's length, which OUT_LEN holds
too. -/
def Obligations.FileStatesItsOwnLength : Prop :=
  ∀ (s t : State) (rest : List Event), s.Inv → s.phase = .busy → s.latch.Admitted s.plat →
    step { s with inbox := .engine :: rest } = .next t →
      bytesToNat (Memory.readBytes t.mem (s.latch.dst + 2) 4) = (encodeFile s.mem s.latch).length ∧
        t.outLen.toNat = (encodeFile s.mem s.latch).length

/-- R136, R159, R115: biSizeImage, at offset 34, is 3wh in Truecolor and ceil(wh / 8) in Monochrome, and it fits its
32-bit field for every accepted command. -/
def Obligations.ImageSizeFieldIsTheUnpaddedValue : Prop :=
  ∀ (mem : Memory) (l : Latch), l.Valid →
    3 * l.w * l.h < 2 ^ 32 ∧ (l.w * l.h + 7) / 8 < 2 ^ 32 ∧
    bytesToNat (((encodeFile mem l).drop 34).take 4) =
      (match l.mode with | .tc => 3 * l.w * l.h | .mono => (l.w * l.h + 7) / 8)

/-- R139, R138: every pixel-data byte of a truecolor file. -/
def Obligations.TruecolorPixelBytes : Prop :=
  ∀ (mem : Memory) (l : Latch) (r x p : Nat), l.mode = .tc → r < l.h →
    let stride := 3 * l.w + (4 - 3 * l.w % 4) % 4
    let pix := l.src + 4 * ((l.h - 1 - r) * l.w + x)
    (x < l.w →
      (encodeFile mem l)[54 + r * stride + 3 * x + 0]? = some (Memory.read mem (pix + 2)) ∧
      (encodeFile mem l)[54 + r * stride + 3 * x + 1]? = some (Memory.read mem (pix + 1)) ∧
      (encodeFile mem l)[54 + r * stride + 3 * x + 2]? = some (Memory.read mem (pix + 0))) ∧
    (p < (4 - 3 * l.w % 4) % 4 → (encodeFile mem l)[54 + r * stride + 3 * l.w + p]? = some 0x00)

/-- R161, R153, R150: every pixel-data byte of a monochrome file; bit 7 - j of packed byte k is 1 exactly when pixel
8k + j is inside the row and its red byte is 0xFF. -/
def Obligations.MonochromePixelBits : Prop :=
  ∀ (mem : Memory) (l : Latch) (r k p : Nat), l.mode = .mono → r < l.h →
    let bytes := (l.w + 7) / 8
    let pad := (4 - bytes % 4) % 4
    (k < bytes → ∃ b : Byte, (encodeFile mem l)[62 + r * (bytes + pad) + k]? = some b ∧
      ∀ j, j < 8 → b.getLsbD (7 - j) =
        (decide (8 * k + j < l.w) &&
          decide (Memory.read mem (l.src + 4 * ((l.h - 1 - r) * l.w + (8 * k + j))) = 0xFF))) ∧
    (p < pad → (encodeFile mem l)[62 + r * (bytes + pad) + bytes + p]? = some 0x00)

/-- R157: bytes 54 to 61 of every monochrome file are the palette. -/
def Obligations.MonochromeFileHoldsThePalette : Prop :=
  ∀ (mem : Memory) (l : Latch), l.mode = .mono →
    ((encodeFile mem l).drop 54).take 8 = [0x00, 0x00, 0x00, 0x00, 0xFF, 0xFF, 0xFF, 0x00]

/-- R54: the A bytes, and in Monochrome the G and B bytes too, have no effect on the file. -/
def Obligations.UnusedPixelBytesHaveNoEffect : Prop :=
  ∀ (m1 m2 : Memory) (l : Latch),
    (∀ x y, x < l.w → y < l.h →
      let p := l.src + 4 * (y * l.w + x)
      Memory.read m1 p = Memory.read m2 p ∧
        (l.mode = .tc → Memory.read m1 (p + 1) = Memory.read m2 (p + 1) ∧ Memory.read m1 (p + 2) = Memory.read m2 (p + 2))) →
      encodeFile m1 l = encodeFile m2 l

/-- R208: two commands with equal latched records whose source regions hold equal bytes write equal bytes and set equal
OUT_LEN and STATUS, whatever the rest of the two states is; and two STARTs with equal register values, whatever the rest
is, set equal STATUS. -/
def Obligations.EqualCommandsWriteEqualFiles : Prop :=
  (∀ (s1 s2 t1 t2 : State) (q1 q2 : List Event), s1.Inv → s2.Inv → s1.phase = .busy → s2.phase = .busy →
    s1.latch = s2.latch → s1.latch.Admitted s1.plat → s2.latch.Admitted s2.plat →
    (∀ a, s1.latch.src ≤ a → a < s1.latch.src + s1.latch.len → Memory.read s1.mem a = Memory.read s2.mem a) →
    step { s1 with inbox := .engine :: q1 } = .next t1 → step { s2 with inbox := .engine :: q2 } = .next t2 →
      (∀ a, s1.latch.dst ≤ a → a < s1.latch.dst + s1.latch.total → Memory.read t1.mem a = Memory.read t2.mem a) ∧
        t1.outLen = t2.outLen ∧ t1.status = t2.status) ∧
  (∀ (s1 s2 t1 t2 : State) (m : Mode) (g1 g2 : BitVec 30), s1.phase = .idle → s2.phase = .idle →
    s1.width = s2.width → s1.height = s2.height → s1.srcAddr = s2.srcAddr → s1.srcLen = s2.srcLen →
    s1.dstAddr = s2.dstAddr → exec (startInstr m g1) s1 = .next t1 → exec (startInstr m g2) s2 = .next t2 →
      t1.status = t2.status ∧ t1.outLen = t2.outLen ∧ t1.phase = t2.phase)

/-! ## Reset -/

/-- R250: reset, in any state: every register 0, so that every slot of the window reads 0, the phase IDLE, `L` zero with
mode TC; system memory is unchanged unless a command was running (R251). -/
def Obligations.ResetClearsTheBlock : Prop :=
  ∀ (s : State) (rest : List Event), s.inbox = .reset :: rest →
    ∃ t, step s = .next t ∧ t.status = 0 ∧ t.width = 0 ∧ t.height = 0 ∧ t.srcAddr = 0 ∧ t.srcLen = 0 ∧ t.dstAddr = 0 ∧
      t.outLen = 0 ∧ (∀ r : Reg, t.readReg r = 0) ∧ t.phase = .idle ∧ t.latch = ⟨.tc, 0, 0, 0, 0, 0, 0⟩ ∧
      (s.phase = .idle → t.mem = s.mem)

/-- R251: reset while BUSY: each byte of the abandoned command's destination region becomes a draw of its own, whatever
value that is, and every other byte, those of the source region among them, is unchanged (the draws and their counter:
assumption 4). -/
def Obligations.ResetWhileBusyLeavesDraws : Prop :=
  ∀ (s : State) (rest : List Event), s.Inv → s.phase = .busy → s.inbox = .reset :: rest →
    ∃ t, step s = .next t ∧ t.status = 0 ∧ t.phase = .idle ∧
      (∀ i, i < s.latch.total → Memory.read t.mem (s.latch.dst + i) = Config.draw (s.draws + i)) ∧
      (∀ a, (a < s.latch.dst ∨ s.latch.dst + s.latch.total ≤ a) → Memory.read t.mem a = Memory.read s.mem a) ∧
      (∀ a, s.latch.src ≤ a → a < s.latch.src + s.latch.len → Memory.read t.mem a = Memory.read s.mem a) ∧
      t.draws = s.draws + s.latch.total

/-- R250, R23: right after reset, on any platform, a read of any word of the window returns 0 (`response`: assumption 9). -/
def Obligations.EveryRegisterReadsZeroAfterReset : Prop :=
  ∀ (p : Platform) (off : BitVec 6), off.toNat % 4 = 0 →
    ∃ t, step { State.resetOn p with inbox := [.access ⟨false, off, 32, 0⟩] } = .next t ∧ t.response = .word 0

/-- The invariant holds right after reset, on any platform, the uninterpreted one of `State.reset` among them. -/
def Obligations.ResetStateMeetsTheInvariant : Prop :=
  State.reset.Inv ∧ ∀ p : Platform, (State.resetOn p).Inv

/-! ## Invariants -/

/-- The invariant is kept by every step, whatever the event: canonical memory, a legal STATUS that agrees with the phase,
OUT_LEN 0 unless DONE, and while BUSY a latched record of a command that passed every check and whose interval is open
(`openCmds`, assumption 6). -/
def Obligations.EveryStepKeepsTheInvariant : Prop :=
  ∀ (s t : State), s.Inv → step s = .next t → t.Inv

/-- R36, R33, R25: the four invariants of the status fields, BUSY agrees with the phase, and STATUS is one of the five
values that R25 derives. -/
def Obligations.StatusFieldInvariants : Prop :=
  ∀ (s : State), s.Inv →
    ¬ (statusDone s.status = true ∧ statusErr s.status = true) ∧
    (statusBusy s.status = true →
      statusDone s.status = false ∧ statusErr s.status = false ∧ statusErrcode s.status = 0 ∧ s.outLen = 0) ∧
    (statusErr s.status = false ↔ statusErrcode s.status = 0) ∧
    (s.outLen ≠ 0 → statusDone s.status = true) ∧
    (statusBusy s.status = true ↔ s.phase = .busy) ∧
    (s.status = 0x00000000 ∨ s.status = 0x00000001 ∨ s.status = 0x00000002 ∨ s.status = 0x00000014 ∨
      s.status = 0x00000024)

/-- R74: the STATUS word from its fields, each field back from the word, and, in every state of the invariant, bit 3 and
bits 31:8 zero and ERRCODE one of 0, 1 (InvalidBuffer) and 2 (Range). -/
def Obligations.StatusWordLayout : Prop :=
  (∀ (busy done err : Bool) (code : BitVec 4),
    let v := statusWord busy done err code
    v.toNat = code.toNat * 16 + err.toNat * 4 + done.toNat * 2 + busy.toNat ∧
      statusBusy v = busy ∧ statusDone v = done ∧ statusErr v = err ∧ statusErrcode v = code) ∧
  (∀ (s : State), s.Inv →
    s.status.getLsbD 3 = false ∧ s.status.toNat < 256 ∧
      s.status = statusWord (statusBusy s.status) (statusDone s.status) (statusErr s.status) (statusErrcode s.status) ∧
      (statusErrcode s.status = 0 ∨ statusErrcode s.status = ErrorCond.invalidBuffer.code ∨
        statusErrcode s.status = ErrorCond.range.code)) ∧
  ErrorCond.invalidBuffer.code = 1 ∧ ErrorCond.range.code = 2

/-- R209, R51: no host access to the window writes a byte of memory, a rejected START included; system memory changes
only by the engine's completion, by the host's own memory write, or by a reset while BUSY. The platform never changes. (The platform in State is
assumption 1; an empty inbox as the engine's turn is assumption 2.) -/
def Obligations.MemoryChangesOnlyByEngineHostOrReset : Prop :=
  (∀ (i : Instr) (s t : State), exec i s = .next t → t.mem = s.mem ∧ t.plat = s.plat) ∧
  (∀ (s t : State), step s = .next t → t.plat = s.plat ∧
    (t.mem ≠ s.mem →
      (s.phase = .busy ∧ s.latch.Admitted s.plat ∧ (s.inbox = [] ∨ s.inbox.head? = some .engine)) ∨
      (∃ a bs, s.inbox.head? = some (.memWrite a bs)) ∨ (s.phase = .busy ∧ s.inbox.head? = some .reset)))

/-- The model's own (DESIGN CHOICE, assumption 3; the spec has no canonical form): memories in canonical form that read alike
at every address are equal. -/
def Obligations.CanonicalMemoriesWithEqualReadsAreEqual : Prop :=
  ∀ (m1 m2 : Memory), Memory.wf m1 = true → Memory.wf m2 = true → (∀ a, Memory.read m1 a = Memory.read m2 a) → m1 = m2

/-! ## The host beside the block -/

/-- R82, R61: outside every open interval and the window, `MEMW` stores its bytes and nothing else, and a `MEMR` of the
same addresses after it returns them. (One step for each action is
assumption 8, `response` is assumption 9.) -/
def Obligations.HostMemoryWriteThenReadReturnsTheBytes : Prop :=
  ∀ (s : State) (a : Nat) (bs : List Byte) (rest : List Event), Memory.wf s.mem = true → a + bs.length ≤ 2 ^ 32 →
    (∀ i, i < bs.length → s.plat.inWindow (BitVec.ofNat 32 (a + i)) = false) →
    s.meetsOpenSource a bs.length = false → s.meetsOpenDest a bs.length = false →
    ∃ t u, step { s with inbox := .memWrite a bs :: .memRead a bs.length :: rest } = .next t ∧ step t = .next u ∧
      u.response = .bytes bs ∧ u.inbox = rest ∧
      (∀ x, (x < a ∨ a + bs.length ≤ x) → Memory.read u.mem x = Memory.read s.mem x) ∧
      u = { s with mem := u.mem, inbox := rest, response := u.response }

/-- R255: from the accepted CMD write until the host reads STATUS with BUSY = 0, a host write of any byte of the latched
source region is the fault SRC_WRITE_BUSY. (`openCmds` holds the records of the open intervals, assumption 6; an action that
meets the window is refused before, assumptions 7 and 8. That a write which meets an open destination region too records
this fault and not R256's is the model's choice, assumption 7.) -/
def Obligations.SourceWriteWhileOpenFaults : Prop :=
  ∀ (s : State) (a : Nat) (bs : List Byte) (rest : List Event) (l : Latch) (x : Nat), l ∈ s.openCmds →
    a + bs.length ≤ 2 ^ 32 → (∀ i, i < bs.length → s.plat.inWindow (BitVec.ofNat 32 (a + i)) = false) →
    a ≤ x → x < a + bs.length → l.src ≤ x → x < l.src + l.len →
      step { s with inbox := .memWrite a bs :: rest } = .fault .srcWriteBusy

/-- R256: over the same interval a host read of any byte of the latched destination region, and a host write of one that
touches no open source region, is the fault DST_ACCESS_BUSY. (Where a write meets both regions the model records the other
fault, assumption 7; `openCmds` is assumption 6, the window assumptions 7 and 8.) -/
def Obligations.DestinationAccessWhileOpenFaults : Prop :=
  ∀ (s : State) (a : Nat) (bs : List Byte) (rest : List Event) (l : Latch) (x : Nat), l ∈ s.openCmds →
    a + bs.length ≤ 2 ^ 32 → (∀ i, i < bs.length → s.plat.inWindow (BitVec.ofNat 32 (a + i)) = false) →
    a ≤ x → x < a + bs.length → l.dst ≤ x → x < l.dst + l.total →
      step { s with inbox := .memRead a bs.length :: rest } = .fault .dstAccessBusy ∧
      ((∀ k ∈ s.openCmds, ∀ y, a ≤ y → y < a + bs.length → ¬ (k.src ≤ y ∧ y < k.src + k.len)) →
        step { s with inbox := .memWrite a bs :: rest } = .fault .dstAccessBusy)

/-- R255, R256: no step but a STATUS read that returns BUSY = 0 (an access by offset or by bus address, or a poll's read), or
a reset, closes an open interval. `openCmds`, that one such read closes every interval, and that a reset closes them, are
assumption 6; `response` is assumption 9. -/
def Obligations.HostDutyIntervalStaysOpen : Prop :=
  ∀ (s t : State) (l : Latch), step s = .next t → l ∈ s.openCmds → l ∉ t.openCmds →
    s.inbox.head? = some .reset ∨
    (((∃ a d, s.NextAccess a ∧ fetchAccess a = .ok (.rdStatus d)) ∨
        ∃ mask value, s.inbox.head? = some (.poll Reg.status.offset mask value)) ∧
      statusBusy s.status = false ∧ t.response = .word s.status ∧ t.openCmds = [])

/-! ## A whole command -/

/-- R253, R210, R195: a whole command. From any IDLE state of the invariant whose registers describe a command that passes
every check and whose regions memory admits, the CMD write and `WAIT` leave: STATUS DONE, read by the host, OUT_LEN the file
length, the phase IDLE, the file at DST_ADDR byte for byte, every byte outside it unchanged, and every other field as it
was, but for `L`, which keeps the started record (assumption 15), `openCmds`, which that STATUS read empties (assumption 6),
and `inbox` and `response` (assumptions 2 and 9). That `WAIT` takes three steps is the model's schedule (assumption 10). -/
def Obligations.CommandRunsFromStartToDone : Prop :=
  ∀ (s : State) (m : Mode) (ign : BitVec 30) (rest : List Event), s.Inv → s.phase = .idle →
    s.BufferValid → s.RangeValid m → s.RegionsApart m → (s.startLatch m).Admitted s.plat →
    ∃ t, runSteps 4 { s with
          inbox := .access ⟨true, 0x00, 32, accessData (encode (startInstr m ign))⟩ :: Stmt.events .wait ++ rest } = .next t ∧
      t.outLen.toNat = s.startTotal m ∧ (encodeFile s.mem (s.startLatch m)).length = s.startTotal m ∧
      (∀ i, i < s.startTotal m →
        (encodeFile s.mem (s.startLatch m))[i]? = some (Memory.read t.mem (s.dstAddr.toNat + i))) ∧
      (∀ a, (a < s.dstAddr.toNat ∨ s.dstAddr.toNat + s.startTotal m ≤ a) → Memory.read t.mem a = Memory.read s.mem a) ∧
      t = { s with
        status := 0x00000002, outLen := t.outLen, phase := .idle, latch := s.startLatch m, mem := t.mem, inbox := rest,
        response := .word 0x00000002, openCmds := [] }
end

