-- ==== Sys2Proof/Laws/Memory.lean ====
section
/-!
SUPPORT. The laws of system memory: a read after a write, what a write leaves alone, the canonical form, and that equal
reads mean equal memories.
-/

namespace Sys2Proof.Machine

@[simp] theorem Memory.read_nil (a : Nat) : Memory.read [] a = Config.unlistedByte := rfl

theorem Memory.wfFrom_cons {lo k : Nat} {b : Byte} {m : Memory} :
    Memory.wfFrom lo ((k, b) :: m) = true ↔
      lo ≤ k ∧ k < Config.addrSpace ∧ b ≠ Config.unlistedByte ∧ Memory.wfFrom (k + 1) m = true := by
  simp [Memory.wfFrom, and_assoc]

/-- A lower bound may be lowered. -/
theorem Memory.wfFrom_mono {lo lo' : Nat} {m : Memory} (hle : lo' ≤ lo) (h : Memory.wfFrom lo m = true) :
    Memory.wfFrom lo' m = true := by
  cases m with
  | nil => rfl
  | cons c m =>
    obtain ⟨k, b⟩ := c
    rw [Memory.wfFrom_cons] at h ⊢
    exact ⟨hle.trans h.1, h.2⟩

/-- Below its bound a memory lists nothing. -/
theorem Memory.read_below {m : Memory} : ∀ {lo a : Nat}, Memory.wfFrom lo m = true → a < lo →
    Memory.read m a = Config.unlistedByte := by
  induction m with
  | nil => intros; rfl
  | cons c m ih =>
    obtain ⟨k, b⟩ := c
    intro lo a h ha
    rw [Memory.wfFrom_cons] at h
    rw [Memory.read, if_neg (by omega)]
    exact ih h.2.2.2 (by omega)

/-- Above the address space a memory lists nothing. -/
theorem Memory.read_outside {m : Memory} : ∀ {lo a : Nat}, Memory.wfFrom lo m = true → Config.addrSpace ≤ a →
    Memory.read m a = Config.unlistedByte := by
  induction m with
  | nil => intros; rfl
  | cons c m ih =>
    obtain ⟨k, b⟩ := c
    intro lo a h ha
    rw [Memory.wfFrom_cons] at h
    rw [Memory.read, if_neg (by omega)]
    exact ih h.2.2.2 ha

/-- A write leaves every other address alone. -/
theorem Memory.read_write_other {m : Memory} {a a' : Nat} {b : Byte} (hne : a' ≠ a) :
    Memory.read (Memory.write m a b) a' = Memory.read m a' := by
  induction m with
  | nil =>
    simp only [Memory.write]
    split
    · rfl
    · simp [Memory.read, Ne.symm hne]
  | cons c m ih =>
    obtain ⟨k, c⟩ := c
    simp only [Memory.write]
    split
    · split
      · rfl
      · simp [Memory.read, Ne.symm hne]
    · split
      · subst_vars
        split <;> simp [Memory.read, Ne.symm hne]
      · simp only [Memory.read, ih]

/-- A read after a write to the same address gives the byte written. -/
theorem Memory.read_write_same_from {m : Memory} : ∀ {lo a : Nat} {b : Byte}, Memory.wfFrom lo m = true →
    Memory.read (Memory.write m a b) a = b := by
  induction m with
  | nil =>
    intro lo a b _
    simp only [Memory.write]
    split
    · simp_all
    · simp [Memory.read]
  | cons c m ih =>
    obtain ⟨k, c⟩ := c
    intro lo a b h
    have h' := h
    rw [Memory.wfFrom_cons] at h
    simp only [Memory.write]
    split
    · split
      · subst_vars
        exact Memory.read_below (lo := k) (Memory.wfFrom_cons.2 ⟨le_refl _, h.2⟩) (by assumption)
      · simp [Memory.read]
    · split
      · split
        · subst_vars
          exact Memory.read_below h.2.2.2 (by omega)
        · simp [Memory.read]
      · rw [Memory.read, if_neg (by omega)]
        exact ih h.2.2.2

theorem Memory.read_write_same {m : Memory} {a : Nat} {b : Byte} (h : Memory.wf m = true) :
    Memory.read (Memory.write m a b) a = b := Memory.read_write_same_from h

/-- Everything a write does to reads. -/
theorem Memory.read_write {m : Memory} {a a' : Nat} {b : Byte} (h : Memory.wf m = true) :
    Memory.read (Memory.write m a b) a' = if a' = a then b else Memory.read m a' := by
  split
  · subst_vars
    exact Memory.read_write_same h
  · exact Memory.read_write_other (by assumption)

theorem Memory.write_wfFrom {m : Memory} : ∀ {lo a : Nat} {b : Byte}, Memory.wfFrom lo m = true → lo ≤ a →
    a < Config.addrSpace → Memory.wfFrom lo (Memory.write m a b) = true := by
  induction m with
  | nil =>
    intro lo a b _ hlo ha
    simp only [Memory.write]
    split
    · rfl
    · exact Memory.wfFrom_cons.2 ⟨hlo, ha, by assumption, rfl⟩
  | cons c m ih =>
    obtain ⟨k, c⟩ := c
    intro lo a b h hlo ha
    have h' := h
    rw [Memory.wfFrom_cons] at h
    simp only [Memory.write]
    split
    · split
      · exact h'
      · exact Memory.wfFrom_cons.2 ⟨hlo, ha, by assumption, Memory.wfFrom_cons.2 ⟨by omega, h.2⟩⟩
    · split
      · split
        · exact Memory.wfFrom_mono (by omega) h.2.2.2
        · exact Memory.wfFrom_cons.2 ⟨hlo, ha, by assumption, by subst_vars; exact h.2.2.2⟩
      · exact Memory.wfFrom_cons.2 ⟨h.1, h.2.1, h.2.2.1, ih h.2.2.2 (by omega) ha⟩

/-- A write inside the address space keeps the canonical form. -/
theorem Memory.write_wf {m : Memory} {a : Nat} {b : Byte} (h : Memory.wf m = true) (ha : a < Config.addrSpace) :
    Memory.wf (Memory.write m a b) = true := Memory.write_wfFrom h (Nat.zero_le a) ha

/-- Writing bytes inside the address space keeps the canonical form. -/
theorem Memory.writeBytes_wf {bs : List Byte} : ∀ {m : Memory} {a : Nat}, Memory.wf m = true →
    a + bs.length ≤ Config.addrSpace → Memory.wf (Memory.writeBytes m a bs) = true := by
  induction bs with
  | nil => intro m a h _; exact h
  | cons b bs ih =>
    intro m a h ha
    simp only [List.length_cons] at ha
    exact ih (Memory.write_wf h (by omega)) (by omega)

/-- Writing bytes leaves every address outside them alone. -/
theorem Memory.read_writeBytes_outside {bs : List Byte} : ∀ {m : Memory} {a a' : Nat},
    (a' < a ∨ a + bs.length ≤ a') → Memory.read (Memory.writeBytes m a bs) a' = Memory.read m a' := by
  induction bs with
  | nil => intros; rfl
  | cons b bs ih =>
    intro m a a' h
    simp only [List.length_cons] at h
    rw [Memory.writeBytes, ih (by omega), Memory.read_write_other (by omega)]

/-- Reading back byte `i` of the bytes written. -/
theorem Memory.read_writeBytes_inside {bs : List Byte} : ∀ {m : Memory} {a i : Nat} (_ : Memory.wf m = true)
    (_ : a + bs.length ≤ Config.addrSpace) (hi : i < bs.length),
    Memory.read (Memory.writeBytes m a bs) (a + i) = bs[i] := by
  induction bs with
  | nil => intro m a i _ _ hi; exact absurd hi (by simp)
  | cons b bs ih =>
    intro m a i h ha hi
    simp only [List.length_cons] at ha hi
    rw [Memory.writeBytes]
    cases i with
    | zero =>
      rw [Memory.read_writeBytes_outside (by omega)]
      exact Memory.read_write_same h
    | succ i =>
      have := ih (m := Memory.write m a b) (a := a + 1) (i := i) (Memory.write_wf h (by omega)) (by omega) (by omega)
      rw [show a + (i + 1) = a + 1 + i by omega, this]
      rfl

/-- The bytes at `[a, a + n)` after they were written there. -/
theorem Memory.readBytes_writeBytes {m : Memory} {a : Nat} {bs : List Byte} (h : Memory.wf m = true)
    (ha : a + bs.length ≤ Config.addrSpace) : Memory.readBytes (Memory.writeBytes m a bs) a bs.length = bs := by
  apply List.ext_getElem
  · simp [Memory.readBytes]
  · intro i h1 h2
    simp only [Memory.readBytes, List.getElem_map, List.getElem_range]
    exact Memory.read_writeBytes_inside h ha h2

@[simp] theorem Memory.readBytes_length (m : Memory) (a n : Nat) : (Memory.readBytes m a n).length = n := by
  simp [Memory.readBytes]

/-! ## Regions and the platform -/

theorem inRegion_iff {base n a : Nat} : inRegion base n a = true ↔ base ≤ a ∧ a < base + n := by
  simp [inRegion]

/-- Two regions meet exactly when some address lies in both. -/
theorem regionsMeet_iff {a n b k : Nat} :
    regionsMeet a n b k = true ↔ ∃ x, (a ≤ x ∧ x < a + n) ∧ (b ≤ x ∧ x < b + k) := by
  simp only [regionsMeet, Bool.and_eq_true, decide_eq_true_eq]
  constructor
  · rintro ⟨⟨⟨h1, h2⟩, h3⟩, h4⟩
    exact ⟨max a b, by omega, by omega⟩
  · rintro ⟨x, h1, h2⟩
    omega

theorem regionsMeet_false_iff {a n b k : Nat} :
    regionsMeet a n b k = false ↔ n = 0 ∨ k = 0 ∨ b + k ≤ a ∨ a + n ≤ b := by
  simp only [regionsMeet, Bool.and_eq_false_iff, decide_eq_false_iff_not]
  omega

end Sys2Proof.Machine

namespace Sys2Proof

theorem Platform.admitsAll_iff {p : Platform} {a n : Nat} {d : Dir} :
    p.admitsAll a n d = true ↔ ∀ x, a ≤ x → x < a + n → p.admits x d = true := by
  simp only [Platform.admitsAll, List.all_eq_true, List.mem_range]
  constructor
  · intro h x h1 h2
    have := h (x - a) (by omega)
    rwa [show a + (x - a) = x by omega] at this
  · intro h i hi
    exact h _ (by omega) (by omega)

/-- An admitted address is in the address space and not in the block's own window (R69). -/
theorem Platform.admits_bound {p : Platform} {a : Nat} {d : Dir} (h : p.admits a d = true) :
    a < Config.addrSpace ∧ p.inWindow (BitVec.ofNat 32 a) = false := by
  simp only [Platform.admits, Bool.and_eq_true, decide_eq_true_eq, Bool.not_eq_true'] at h
  exact h.1

/-- A host address has the offset `off` in the window exactly when it is `REG_BASE + off`. -/
theorem Platform.windowOffset_eq_some {p : Platform} {addr : Word} {off : BitVec 6} :
    p.windowOffset addr = some off ↔ addr = p.regBase + off.setWidth 32 := by
  have hb := off.isLt
  constructor
  · intro h
    unfold Platform.windowOffset at h
    split at h
    · rename_i hw
      have hlt : (addr - p.regBase).toNat < 64 := by simpa [Platform.inWindow] using hw
      have ho : (addr - p.regBase).setWidth 6 = off := Option.some.inj h
      have hs : off.setWidth 32 = addr - p.regBase := by
        rw [← ho]
        apply BitVec.eq_of_toNat_eq
        rw [BitVec.toNat_setWidth, BitVec.toNat_setWidth]
        omega
      rw [hs, BitVec.add_comm, BitVec.sub_add_cancel]
    · cases h
  · rintro rfl
    have hd : p.regBase + off.setWidth 32 - p.regBase = off.setWidth 32 := by
      rw [BitVec.add_comm, BitVec.add_sub_cancel]
    have hw : p.inWindow (p.regBase + off.setWidth 32) = true := by
      rw [Platform.inWindow, hd, decide_eq_true_eq, BitVec.toNat_setWidth]
      exact Nat.lt_of_le_of_lt (Nat.mod_le _ _) hb
    rw [Platform.windowOffset, hw, hd]
    simp

end Sys2Proof
end

