-- ==== Sys2Proof/Laws/Sizes.lean ====
section
/-!
SUPPORT. The size arithmetic of 40_header.md and the lengths of the byte sequences the encoders build.
-/

namespace Sys2Proof.Machine

theorem pad4_lt (n : Nat) : pad4 n < 4 := by unfold pad4; omega

theorem add_pad4_mod (n : Nat) : (n + pad4 n) % 4 = 0 := by unfold pad4; omega

theorem ceilDiv_eight (a : Nat) : ceilDiv a 8 = (a + 7) / 8 := rfl

@[simp] theorem wordBytes_length (v : Word) : (wordBytes v).length = 4 := rfl

@[simp] theorem le32_length (v : Int) : (le32 v).length = 4 := rfl

@[simp] theorem le16_length (v : Nat) : (le16 v).length = 2 := rfl

@[simp] theorem zeros_length (n : Nat) : (zeros n).length = n := by simp [zeros]

/-- `LE32` of a number below 2^32 stands for that number. -/
theorem bytesToNat_le32 {v : Nat} (h : v < 2 ^ 32) : bytesToNat (le32 v) = v := by
  simp only [le32, BitVec.ofInt_natCast, wordBytes, bytesToNat, BitVec.extractLsb'_toNat, BitVec.toNat_ofNat, Nat.shiftRight_eq_div_pow]
  omega

/-- `LE16` of a number below 2^16 stands for that number. -/
theorem bytesToNat_le16 {v : Nat} (h : v < 2 ^ 16) : bytesToNat (le16 v) = v := by
  simp only [le16, bytesToNat, BitVec.toNat_ofNat]
  omega

/-! ## Concatenation of pieces of one length -/

theorem concat_zero (f : Nat → List Byte) : concat 0 f = [] := rfl

theorem concat_succ (n : Nat) (f : Nat → List Byte) : concat (n + 1) f = concat n f ++ f n := by
  simp [concat, List.range_succ]

theorem concat_length {f : Nat → List Byte} {k : Nat} : ∀ {n : Nat}, (∀ i, i < n → (f i).length = k) →
    (concat n f).length = n * k := by
  intro n
  induction n with
  | zero => intro _; simp [concat]
  | succ n ih =>
    intro h
    rw [concat_succ, List.length_append, ih fun i hi => h i (by omega), h n (by omega)]
    ring

/-- Byte `i * k + j` of a concatenation of pieces of length `k` is byte `j` of piece `i`. -/
theorem concat_getElem? {f : Nat → List Byte} {k : Nat} : ∀ {n i j : Nat}, (∀ i, i < n → (f i).length = k) →
    i < n → j < k → (concat n f)[i * k + j]? = (f i)[j]? := by
  intro n
  induction n with
  | zero => intro i j _ hi; exact absurd hi (by omega)
  | succ n ih =>
    intro i j h hi hj
    have hlen : (concat n f).length = n * k := concat_length fun i hi => h i (by omega)
    rw [concat_succ]
    by_cases hin : i < n
    · have hle : (i + 1) * k ≤ n * k := Nat.mul_le_mul_right k hin
      rw [List.getElem?_append_left (by rw [hlen]; rw [Nat.succ_mul] at hle; omega)]
      exact ih (fun i hi => h i (by omega)) hin hj
    · obtain rfl : i = n := by omega
      rw [List.getElem?_append_right (by rw [hlen]; omega), hlen, Nat.add_sub_cancel_left]

/-! ## Lengths of the header and of the rows -/

@[simp] theorem fileHeader_length (m : Mode) (w h : Nat) : (fileHeader m w h).length = 14 := rfl

@[simp] theorem infoHeader_length (m : Mode) (w h z : Nat) : (infoHeader m w h z).length = 40 := rfl

@[simp] theorem hdr_length (m : Mode) (w h z : Nat) : (hdr m w h z).length = 54 := rfl

@[simp] theorem pal_length : pal.length = 8 := rfl

/-- Concatenations of equal pieces are equal. -/
theorem concat_congr {f g : Nat → List Byte} {n : Nat} (h : ∀ i, i < n → f i = g i) : concat n f = concat n g := by
  unfold concat
  rw [List.flatMap_def, List.flatMap_def]
  congr 1
  exact List.map_congr_left fun i hi => h i (List.mem_range.1 hi)

/-- A packed bit is 1 exactly for a pixel inside the row whose red byte is 0xFF (R150, R153). -/
theorem packedBit_eq_one {m : Memory} {l : Latch} {x y : Nat} :
    packedBit m l x y = 1 ↔ x < l.w ∧ pixR m l x y = 0xFF := by
  unfold packedBit pixBit
  split
  · rename_i h
    rw [and_iff_right h, ← beq_iff_eq (b := (0xFF : Byte))]
    cases pixR m l x y == 0xFF <;> decide
  · rename_i h
    exact ⟨fun h0 => absurd h0 (by decide), fun h1 => absurd h1.1 h⟩

theorem packedBit_lt_two (m : Memory) (l : Latch) (x y : Nat) : packedBit m l x y < 2 := by
  unfold packedBit pixBit
  split
  · cases pixR m l x y == 0xFF <;> decide
  · decide

theorem bgrRow_length (m : Memory) (l : Latch) (y n : Nat) : (concat n fun x => bgr m l x y).length = n * 3 :=
  concat_length fun _ _ => rfl

@[simp] theorem tcRow_length (m : Memory) (l : Latch) (y : Nat) : (tcRow m l y).length = stride .tc l.w := by
  simp only [tcRow, List.length_append, bgrRow_length, zeros_length, stride, rowBytes]
  omega

theorem packRow_length (m : Memory) (l : Latch) (y n : Nat) : (concat n fun k => [packByte m l k y]).length = n := by
  rw [concat_length (k := 1) fun _ _ => rfl, Nat.mul_one]

@[simp] theorem monoRow_length (m : Memory) (l : Latch) (y : Nat) : (monoRow m l y).length = stride .mono l.w := by
  simp only [monoRow, List.length_append, packRow_length, zeros_length, stride]

@[simp] theorem tcData_length (m : Memory) (l : Latch) : (tcData m l).length = l.h * stride .tc l.w :=
  concat_length fun _ _ => tcRow_length _ _ _

@[simp] theorem monoData_length (m : Memory) (l : Latch) : (monoData m l).length = l.h * stride .mono l.w :=
  concat_length fun _ _ => monoRow_length _ _ _

@[simp] theorem encTc_length (m : Memory) (l : Latch) : (encTc m l).length = fileSize .tc l.w l.h := by
  simp only [encTc, List.length_append, hdr_length, tcData_length, fileSize, offBits]

@[simp] theorem encMono_length (m : Memory) (l : Latch) : (encMono m l).length = fileSize .mono l.w l.h := by
  simp only [encMono, List.length_append, hdr_length, pal_length, monoData_length, fileSize, offBits]

/-- The file is as long as `FileSize` says, in both modes (R137, R160). -/
@[simp] theorem encodeFile_length (m : Memory) (l : Latch) : (encodeFile m l).length = fileSize l.mode l.w l.h := by
  unfold encodeFile
  cases h : l.mode <;> simp

theorem offBits_le_fileSize (m : Mode) (w h : Nat) : 54 ≤ fileSize m w h := by
  cases m <;> simp only [fileSize, offBits] <;> omega

end Sys2Proof.Machine
end

