-- ==== Sys2Proof/Laws/Commands.lean ====
section
/-!
SUPPORT. The checks of a START, and everything a START can do.
-/

namespace Sys2Proof.Machine

/-- `int32` is the two's-complement value. -/
theorem int32_eq_toInt (v : Word) : int32 v = v.toInt := by
  have h := v.isLt
  rw [int32, BitVec.toInt_eq_toNat_cond]
  by_cases hm : v.getLsbD 31 = true
  · have : 2 ^ 31 ≤ v.toNat := by
      by_contra hlt
      rw [BitVec.getLsbD, Nat.testBit_lt_two_pow (by omega)] at hm
      exact absurd hm (by decide)
    rw [if_pos hm, if_neg (by omega)]
    norm_num
  · have : v.toNat < 2 ^ 31 := by
      by_contra hge
      apply hm
      rw [BitVec.getLsbD, Nat.testBit_eq_decide_div_mod_eq, decide_eq_true_eq]
      omega
    rw [if_neg hm, if_pos (by omega)]

theorem int32_bounds (v : Word) : -2 ^ 31 ≤ int32 v ∧ int32 v < 2 ^ 31 := by
  rw [int32_eq_toInt]
  have h1 := BitVec.le_toInt v
  have h2 := BitVec.toInt_lt (x := v)
  norm_num at h1 h2 ⊢
  exact ⟨h1, h2⟩

/-- What `Validate` checks (R189). -/
theorem validateOk_iff {wr hr len : Word} :
    validateOk wr hr len = true ↔
      0 < int32 wr ∧ 0 < int32 hr ∧ (len.toNat : Int) = 4 * int32 wr * int32 hr := by
  simp [validateOk, and_assoc]

/-- What `RangeCheck` checks (R190). -/
theorem rangeOk_iff {m : Mode} {w h src len dst : Nat} :
    rangeOk m w h src len dst = true ↔
      fileSize m w h ≤ 2 ^ 32 - 1 ∧ src + len ≤ 2 ^ 32 ∧ dst + fileSize m w h ≤ 2 ^ 32 := by
  simp only [rangeOk, inAddrSpace, Bool.and_eq_true, decide_eq_true_eq, and_assoc]

/-- The record latched from registers that pass both checks is valid (R34). -/
theorem operandsOf_valid {m : Mode} {s : State} (hv : validateOk s.width s.height s.srcLen = true)
    (hr : rangeOk m (operandsOf m s).w (operandsOf m s).h (operandsOf m s).src (operandsOf m s).len (operandsOf m s).dst = true)
    (hd : regionsMeet (operandsOf m s).src (operandsOf m s).len (operandsOf m s).dst (operandsOf m s).total = false) :
    (operandsOf m s).Valid := by
  rw [validateOk_iff] at hv
  rw [rangeOk_iff] at hr
  obtain ⟨hw, hh, hl⟩ := hv
  have bw := int32_bounds s.width
  have bh := int32_bounds s.height
  have ew : (((operandsOf m s).w : Nat) : Int) = int32 s.width := Int.toNat_of_nonneg hw.le
  have eh : (((operandsOf m s).h : Nat) : Int) = int32 s.height := Int.toNat_of_nonneg hh.le
  refine ⟨by omega, by omega, by omega, by omega, ?_, rfl, hr.1, hr.2.1, hr.2.2, hd⟩
  rw [← ew, ← eh] at hl
  have : (operandsOf m s).len = s.srcLen.toNat := rfl
  rw [this]
  exact_mod_cast hl

/-- Everything a START can do: ignored while BUSY, rejected with one of the two errors, stopped by the overlap fault, or
accepted with a valid record (R191 to R194). -/
theorem start_cases (m : Mode) (s : State) :
    (s.phase = .busy ∧ start m s = .next s) ∨
    (s.phase = .idle ∧ start m s = .next (s.raise .invalidBuffer)) ∨
    (s.phase = .idle ∧ start m s = .next (s.raise .range)) ∨
    (s.phase = .idle ∧ start m s = .fault .overlap) ∨
    (s.phase = .idle ∧ (operandsOf m s).Valid ∧ start m s = .next (s.accept (operandsOf m s))) := by
  cases hp : s.phase with
  | busy => exact .inl ⟨rfl, by simp [start, hp]⟩
  | idle =>
    right
    simp only [start, hp, startCommand, true_and]
    cases hv : validateOk s.width s.height s.srcLen with
    | false => exact .inl (by simp)
    | true =>
      right
      cases hr : rangeOk m (operandsOf m s).w (operandsOf m s).h (operandsOf m s).src (operandsOf m s).len
          (operandsOf m s).dst with
      | false => exact .inl (by simp)
      | true =>
        right
        cases hd : regionsMeet (operandsOf m s).src (operandsOf m s).len (operandsOf m s).dst (operandsOf m s).total with
        | true => exact .inl (by simp)
        | false => exact .inr ⟨operandsOf_valid hv hr hd, by simp⟩

/-- A valid record's source and destination regions share no address. -/
theorem Latch.Valid.no_shared_byte {l : Latch} (h : l.Valid) (x : Nat) :
    ¬ ((l.src ≤ x ∧ x < l.src + l.len) ∧ (l.dst ≤ x ∧ x < l.dst + l.total)) := by
  intro hx
  have := regionsMeet_iff.2 ⟨x, hx⟩
  rw [h.disjoint] at this
  exact absurd this (by decide)

/-- Writing the file of a valid record keeps memory in canonical form. -/
theorem engineComplete_mem_wf {s : State} (hm : Memory.wf s.mem = true) (hl : s.latch.Valid) :
    Memory.wf s.engineComplete.mem = true := by
  apply Memory.writeBytes_wf hm
  rw [encodeFile_length, ← hl.total_eq]
  exact hl.dst_fits

end Sys2Proof.Machine
end

