-- ==== Sys2Proof/Laws/Encoding.lean ====
section
/-!
SUPPORT. The fields of access words and command words read back, and the five-byte frame.
-/

namespace Sys2Proof

/-- The bits of an access word (R70). -/
theorem accessWord_getLsbD (w : Bool) (o : BitVec 6) (d : Word) (i : Nat) :
    (accessWord w o d).getLsbD i =
      if i < 32 then d.getLsbD i else if i - 32 < 6 then o.getLsbD (i - 32) else (BitVec.ofBool w).getLsbD (i - 32 - 6) := by
  simp only [accessWord, BitVec.getLsbD_append]

@[simp] theorem accessDir_accessWord (w : Bool) (o : BitVec 6) (d : Word) : accessDir (accessWord w o d) = w := by
  rw [accessDir, accessWord_getLsbD]
  simp

@[simp] theorem accessOff_accessWord (w : Bool) (o : BitVec 6) (d : Word) : accessOff (accessWord w o d) = o := by
  apply BitVec.eq_of_getLsbD_eq
  intro i hi
  rw [accessOff, BitVec.getLsbD_extractLsb', accessWord_getLsbD, if_neg (by omega), if_pos (by omega),
    Nat.add_sub_cancel_left]
  simp [hi]

@[simp] theorem accessData_accessWord (w : Bool) (o : BitVec 6) (d : Word) : accessData (accessWord w o d) = d := by
  apply BitVec.eq_of_getLsbD_eq
  intro i hi
  rw [accessData, BitVec.getLsbD_extractLsb', accessWord_getLsbD, if_pos (by omega), Nat.zero_add]
  simp [hi]

/-- An access word is its three fields. -/
theorem accessWord_fields (a : AccessWord) : accessWord (accessDir a) (accessOff a) (accessData a) = a := by
  apply BitVec.eq_of_getLsbD_eq
  intro i hi
  simp only [accessDir, accessOff, accessData, accessWord, BitVec.getLsbD_append, BitVec.getLsbD_extractLsb']
  by_cases h1 : i < 32
  · simp [h1]
  · by_cases h2 : i - 32 < 6
    · simp only [h1, h2, decide_true, Bool.true_and, ↓reduceIte]
      congr 1; omega
    · obtain rfl : i = 38 := by omega
      simp

/-- The bits of a command word (R71). -/
theorem commandWord_getLsbD (i : BitVec 30) (m st : Bool) (j : Nat) :
    (commandWord i m st).getLsbD j =
      if j < 1 then (BitVec.ofBool st).getLsbD j
      else if j - 1 < 1 then (BitVec.ofBool m).getLsbD (j - 1) else i.getLsbD (j - 1 - 1) := by
  simp only [commandWord, BitVec.getLsbD_append]

@[simp] theorem commandStart_commandWord (i : BitVec 30) (m st : Bool) : commandStart (commandWord i m st) = st := by
  rw [commandStart, commandWord_getLsbD]
  simp

@[simp] theorem commandMode_commandWord (i : BitVec 30) (m st : Bool) : commandMode (commandWord i m st) = m := by
  rw [commandMode, commandWord_getLsbD]
  simp

@[simp] theorem commandIgn_commandWord (i : BitVec 30) (m st : Bool) : commandIgn (commandWord i m st) = i := by
  apply BitVec.eq_of_getLsbD_eq
  intro j hj
  have h1 : ¬ 2 + j < 1 := by omega
  have h2 : ¬ 2 + j - 1 < 1 := by omega
  simp only [commandIgn, commandWord, BitVec.getLsbD_append, BitVec.getLsbD_extractLsb', hj, h1, h2, decide_true,
    Bool.true_and, ↓reduceIte]
  congr 1; omega

/-- A command word is its three fields. -/
theorem commandWord_fields (c : Word) : commandWord (commandIgn c) (commandMode c) (commandStart c) = c := by
  apply BitVec.eq_of_getLsbD_eq
  intro i hi
  simp only [commandIgn, commandMode, commandStart, commandWord, BitVec.getLsbD_append, BitVec.getLsbD_extractLsb']
  by_cases h1 : i < 1
  · obtain rfl : i = 0 := by omega
    simp
  · by_cases h2 : i - 1 < 1
    · obtain rfl : i = 1 := by omega
      simp
    · have : i - 1 - 1 < 30 := by omega
      simp only [h1, h2, this, decide_true, Bool.true_and, ↓reduceIte]
      congr 1; omega

/-- The register at a reserved offset. -/
theorem regAt_reserved {off : BitVec 6} (h : isReservedOffset off = true) :
    regAt off = .rsvd (off.extractLsb' 2 3) := by
  simp only [isReservedOffset, Bool.and_eq_true] at h
  rw [regAt, h.1.1]

theorem reserved_aligned {off : BitVec 6} (h : isReservedOffset off = true) : off.extractLsb' 0 2 = 0#2 := by
  revert h; revert off; decide

theorem bytesToNat_natToBytes (n v : Nat) : bytesToNat (natToBytes n v) = v % 2 ^ (8 * n) := by
  induction n generalizing v with
  | zero => simp [natToBytes, bytesToNat, Nat.mod_one]
  | succ n ih =>
    rw [natToBytes, bytesToNat, ih, BitVec.toNat_ofNat, show 8 * (n + 1) = 8 + 8 * n by omega, Nat.pow_add]
    exact (Nat.mod_mul).symm

@[simp] theorem natToBytes_length (n v : Nat) : (natToBytes n v).length = n := by
  induction n generalizing v with
  | zero => rfl
  | succ n ih => simp [natToBytes, ih]

theorem bytesToNat_lt (bs : List Byte) : bytesToNat bs < 2 ^ (8 * bs.length) := by
  induction bs with
  | nil => simp [bytesToNat]
  | cons b bs ih =>
    have hb := b.isLt
    rw [bytesToNat, List.length_cons, show 8 * (bs.length + 1) = 8 + 8 * bs.length by omega, Nat.pow_add]
    calc b.toNat + 2 ^ 8 * bytesToNat bs < 2 ^ 8 + 2 ^ 8 * bytesToNat bs := by omega
      _ = 2 ^ 8 * (bytesToNat bs + 1) := by omega
      _ ≤ 2 ^ 8 * 2 ^ (8 * bs.length) := Nat.mul_le_mul_left _ ih

theorem natToBytes_bytesToNat (bs : List Byte) : natToBytes bs.length (bytesToNat bs) = bs := by
  induction bs with
  | nil => rfl
  | cons b bs ih =>
    have hb := b.isLt
    rw [List.length_cons, natToBytes, bytesToNat]
    congr 1
    · apply BitVec.eq_of_toNat_eq
      simp only [BitVec.toNat_ofNat]
      omega
    · rw [show (b.toNat + 2 ^ 8 * bytesToNat bs) / 2 ^ 8 = bytesToNat bs by omega, ih]

/-- On the frame of an access word the byte decoder is the word decoder. -/
theorem decode_frame (a : AccessWord) : decode (natToBytes 5 a.toNat) = decodeWord a := by
  have ha := a.isLt
  have h : bytesToNat (natToBytes 5 a.toNat) = a.toNat := by
    rw [bytesToNat_natToBytes]; exact Nat.mod_eq_of_lt (by omega)
  simp only [decode, natToBytes_length, h, ↓reduceIte, if_pos ha, BitVec.ofNat_toNat, BitVec.setWidth_eq]

end Sys2Proof
end

