-- ==== Sys2Proof/Laws/PerInstr.lean ====
section
/-!
SUPPORT. Statements made constructor by constructor. `TableRow`: a well-formed instruction's access word matches its own
row of opcode_table.json, and its DIR bit says whether it is a write (R70).
-/

namespace Sys2Proof.Laws.TableRow

open Sys2Proof

/-- The access word of the instruction, where it is well-formed, matches the row of its mnemonic, and carries its DIR. -/
def Statement (i : Instr) : Prop :=
  i.wf = true →
    (∃ r ∈ opcodeTable, r.mnemonic = i.mnemonic ∧ r.applies (encode i) = true) ∧ accessDir (encode i) = i.isWrite

/-- Access words are combined field by field. -/
theorem accessWord_and (w w' : Bool) (o o' : BitVec 6) (d d' : Word) :
    accessWord w o d &&& accessWord w' o' d' = accessWord (w && w') (o &&& o') (d &&& d') := by
  apply BitVec.eq_of_getLsbD_eq
  intro i _
  simp only [BitVec.getLsbD_and, accessWord_getLsbD]
  split
  · rfl
  · split
    · rfl
    · cases w <;> cases w' <;> simp

/-- A row whose mask examines DIR and every bit of OFF applies to the accesses of its DIR and OFF. -/
theorem applies_access (w : Bool) (o : BitVec 6) (d : Word) (n : String) :
    (OpcodeRow.mk n (accessWord w o 0) (accessWord true 0x3F 0)).applies (accessWord w o d) = true := by
  have h : o &&& 0x3F = o := BitVec.and_allOnes
  have hd : d &&& 0 = 0 := BitVec.and_zero
  rw [OpcodeRow.applies, decide_eq_true_eq, accessWord_and, h, hd, Bool.and_true]

/-- A row whose mask examines DIR, OFF[5] and OFF[1:0] applies to the accesses of a reserved slot. -/
theorem applies_reserved {w : Bool} {o : BitVec 6} (d : Word) (n : String) (h : isReservedOffset o = true) :
    (OpcodeRow.mk n (accessWord w 0x20 0) (accessWord true 0x23 0)).applies (accessWord w o d) = true := by
  have ho : o &&& 0x23 = 0x20 := by revert h; revert o; decide
  have hd : d &&& 0 = 0 := BitVec.and_zero
  rw [OpcodeRow.applies, decide_eq_true_eq, accessWord_and, ho, hd, Bool.and_true]

/-- A row whose mask examines DIR, OFF and the command bits in `m` applies to the commands with those bits. -/
theorem applies_command {c m p : Word} (n : String) (h : c &&& m = p) :
    (OpcodeRow.mk n (accessWord true 0x00 p) (accessWord true 0x3F m)).applies (accessWord true 0x00 c) = true := by
  rw [OpcodeRow.applies, decide_eq_true_eq, accessWord_and, h]
  rfl

/-- The two low bits of a command word are MODE and START (R71). -/
theorem commandWord_and (ign : BitVec 30) (m s m' s' : Bool) :
    commandWord ign m s &&& commandWord 0 m' s' = commandWord 0 (m && m') (s && s') := by
  apply BitVec.eq_of_getLsbD_eq
  intro i _
  simp only [BitVec.getLsbD_and, commandWord_getLsbD]
  split
  · cases s <;> cases s' <;> simp
  · split
    · cases m <;> cases m' <;> simp
    · simp

theorem nop (mode : Bool) (ign : BitVec 30) : Statement (.nop mode ign) := fun _ =>
  ⟨⟨_, List.mem_of_getElem? (i := 0) rfl, rfl,
    applies_command (m := 0x00000001) (p := 0) "NOP" (by
      have h := commandWord_and ign mode false false true
      rwa [Bool.and_false, Bool.false_and] at h)⟩, by simp [encode, Instr.isWrite]⟩

theorem encodeTc (ign : BitVec 30) : Statement (.encodeTc ign) := fun _ =>
  ⟨⟨_, List.mem_of_getElem? (i := 1) rfl, rfl,
    applies_command (m := 0x00000003) (p := 1) "ENCODE_TC" (commandWord_and ign false true true true)⟩,
    by simp [encode, Instr.isWrite]⟩

theorem encodeMono (ign : BitVec 30) : Statement (.encodeMono ign) := fun _ =>
  ⟨⟨_, List.mem_of_getElem? (i := 2) rfl, rfl,
    applies_command (m := 0x00000003) (p := 3) "ENCODE_MONO" (commandWord_and ign true true true true)⟩,
    by simp [encode, Instr.isWrite]⟩

theorem wrStatus (v : Word) : Statement (.wrStatus v) := fun _ =>
  ⟨⟨_, List.mem_of_getElem? (i := 3) rfl, rfl, applies_access true 0x04 v "WR_STATUS"⟩, by simp [encode, Instr.isWrite]⟩

theorem wrWidth (v : Word) : Statement (.wrWidth v) := fun _ =>
  ⟨⟨_, List.mem_of_getElem? (i := 4) rfl, rfl, applies_access true 0x08 v "WR_WIDTH"⟩, by simp [encode, Instr.isWrite]⟩

theorem wrHeight (v : Word) : Statement (.wrHeight v) := fun _ =>
  ⟨⟨_, List.mem_of_getElem? (i := 5) rfl, rfl, applies_access true 0x0C v "WR_HEIGHT"⟩, by simp [encode, Instr.isWrite]⟩

theorem wrSrcAddr (v : Word) : Statement (.wrSrcAddr v) := fun _ =>
  ⟨⟨_, List.mem_of_getElem? (i := 6) rfl, rfl, applies_access true 0x10 v "WR_SRC_ADDR"⟩, by simp [encode, Instr.isWrite]⟩

theorem wrSrcLen (v : Word) : Statement (.wrSrcLen v) := fun _ =>
  ⟨⟨_, List.mem_of_getElem? (i := 7) rfl, rfl, applies_access true 0x14 v "WR_SRC_LEN"⟩, by simp [encode, Instr.isWrite]⟩

theorem wrDstAddr (v : Word) : Statement (.wrDstAddr v) := fun _ =>
  ⟨⟨_, List.mem_of_getElem? (i := 8) rfl, rfl, applies_access true 0x18 v "WR_DST_ADDR"⟩, by simp [encode, Instr.isWrite]⟩

theorem wrOutLen (v : Word) : Statement (.wrOutLen v) := fun _ =>
  ⟨⟨_, List.mem_of_getElem? (i := 9) rfl, rfl, applies_access true 0x1C v "WR_OUT_LEN"⟩, by simp [encode, Instr.isWrite]⟩

theorem wrRsvd (off : BitVec 6) (v : Word) : Statement (.wrRsvd off v) := fun h =>
  ⟨⟨_, List.mem_of_getElem? (i := 10) rfl, rfl, applies_reserved v "WR_RSVD" h⟩, by simp [encode, Instr.isWrite]⟩

theorem rdCmd (d : Word) : Statement (.rdCmd d) := fun _ =>
  ⟨⟨_, List.mem_of_getElem? (i := 11) rfl, rfl, applies_access false 0x00 d "RD_CMD"⟩, by simp [encode, Instr.isWrite]⟩

theorem rdStatus (d : Word) : Statement (.rdStatus d) := fun _ =>
  ⟨⟨_, List.mem_of_getElem? (i := 12) rfl, rfl, applies_access false 0x04 d "RD_STATUS"⟩, by simp [encode, Instr.isWrite]⟩

theorem rdWidth (d : Word) : Statement (.rdWidth d) := fun _ =>
  ⟨⟨_, List.mem_of_getElem? (i := 13) rfl, rfl, applies_access false 0x08 d "RD_WIDTH"⟩, by simp [encode, Instr.isWrite]⟩

theorem rdHeight (d : Word) : Statement (.rdHeight d) := fun _ =>
  ⟨⟨_, List.mem_of_getElem? (i := 14) rfl, rfl, applies_access false 0x0C d "RD_HEIGHT"⟩, by simp [encode, Instr.isWrite]⟩

theorem rdSrcAddr (d : Word) : Statement (.rdSrcAddr d) := fun _ =>
  ⟨⟨_, List.mem_of_getElem? (i := 15) rfl, rfl, applies_access false 0x10 d "RD_SRC_ADDR"⟩, by simp [encode, Instr.isWrite]⟩

theorem rdSrcLen (d : Word) : Statement (.rdSrcLen d) := fun _ =>
  ⟨⟨_, List.mem_of_getElem? (i := 16) rfl, rfl, applies_access false 0x14 d "RD_SRC_LEN"⟩, by simp [encode, Instr.isWrite]⟩

theorem rdDstAddr (d : Word) : Statement (.rdDstAddr d) := fun _ =>
  ⟨⟨_, List.mem_of_getElem? (i := 17) rfl, rfl, applies_access false 0x18 d "RD_DST_ADDR"⟩, by simp [encode, Instr.isWrite]⟩

theorem rdOutLen (d : Word) : Statement (.rdOutLen d) := fun _ =>
  ⟨⟨_, List.mem_of_getElem? (i := 18) rfl, rfl, applies_access false 0x1C d "RD_OUT_LEN"⟩, by simp [encode, Instr.isWrite]⟩

theorem rdRsvd (off : BitVec 6) (d : Word) : Statement (.rdRsvd off d) := fun h =>
  ⟨⟨_, List.mem_of_getElem? (i := 19) rfl, rfl, applies_reserved d "RD_RSVD" h⟩, by simp [encode, Instr.isWrite]⟩

end Sys2Proof.Laws.TableRow
end

