-- ==== Sys2Proof/Laws/State.lean ====
section
/-!
SUPPORT. One lemma per field per named update of the state, so that no later proof unfolds an update.
-/

namespace Sys2Proof.Machine

/-! ## Error entry (R224) -/

@[simp] theorem State.raise_status (s : State) (c : ErrorCond) : (s.raise c).status = statusOfError c := rfl
@[simp] theorem State.raise_width (s : State) (c : ErrorCond) : (s.raise c).width = s.width := rfl
@[simp] theorem State.raise_height (s : State) (c : ErrorCond) : (s.raise c).height = s.height := rfl
@[simp] theorem State.raise_srcAddr (s : State) (c : ErrorCond) : (s.raise c).srcAddr = s.srcAddr := rfl
@[simp] theorem State.raise_srcLen (s : State) (c : ErrorCond) : (s.raise c).srcLen = s.srcLen := rfl
@[simp] theorem State.raise_dstAddr (s : State) (c : ErrorCond) : (s.raise c).dstAddr = s.dstAddr := rfl
@[simp] theorem State.raise_outLen (s : State) (c : ErrorCond) : (s.raise c).outLen = 0 := rfl
@[simp] theorem State.raise_phase (s : State) (c : ErrorCond) : (s.raise c).phase = s.phase := rfl
@[simp] theorem State.raise_latch (s : State) (c : ErrorCond) : (s.raise c).latch = s.latch := rfl
@[simp] theorem State.raise_mem (s : State) (c : ErrorCond) : (s.raise c).mem = s.mem := rfl
@[simp] theorem State.raise_plat (s : State) (c : ErrorCond) : (s.raise c).plat = s.plat := rfl
@[simp] theorem State.raise_inbox (s : State) (c : ErrorCond) : (s.raise c).inbox = s.inbox := rfl
@[simp] theorem State.raise_response (s : State) (c : ErrorCond) : (s.raise c).response = s.response := rfl
@[simp] theorem State.raise_openCmds (s : State) (c : ErrorCond) : (s.raise c).openCmds = s.openCmds := rfl
@[simp] theorem State.raise_draws (s : State) (c : ErrorCond) : (s.raise c).draws = s.draws := rfl

/-! ## Acceptance of a command (R191) -/

@[simp] theorem State.accept_status (s : State) (l : Latch) : (s.accept l).status = statusOfBusy := rfl
@[simp] theorem State.accept_width (s : State) (l : Latch) : (s.accept l).width = s.width := rfl
@[simp] theorem State.accept_height (s : State) (l : Latch) : (s.accept l).height = s.height := rfl
@[simp] theorem State.accept_srcAddr (s : State) (l : Latch) : (s.accept l).srcAddr = s.srcAddr := rfl
@[simp] theorem State.accept_srcLen (s : State) (l : Latch) : (s.accept l).srcLen = s.srcLen := rfl
@[simp] theorem State.accept_dstAddr (s : State) (l : Latch) : (s.accept l).dstAddr = s.dstAddr := rfl
@[simp] theorem State.accept_outLen (s : State) (l : Latch) : (s.accept l).outLen = 0 := rfl
@[simp] theorem State.accept_phase (s : State) (l : Latch) : (s.accept l).phase = .busy := rfl
@[simp] theorem State.accept_latch (s : State) (l : Latch) : (s.accept l).latch = l := rfl
@[simp] theorem State.accept_mem (s : State) (l : Latch) : (s.accept l).mem = s.mem := rfl
@[simp] theorem State.accept_plat (s : State) (l : Latch) : (s.accept l).plat = s.plat := rfl
@[simp] theorem State.accept_inbox (s : State) (l : Latch) : (s.accept l).inbox = s.inbox := rfl
@[simp] theorem State.accept_response (s : State) (l : Latch) : (s.accept l).response = s.response := rfl
@[simp] theorem State.accept_openCmds (s : State) (l : Latch) : (s.accept l).openCmds = l :: s.openCmds := rfl
@[simp] theorem State.accept_draws (s : State) (l : Latch) : (s.accept l).draws = s.draws := rfl

/-! ## Register reads (R199 to R207) -/

@[simp] theorem State.respondReg_status (s : State) (r : Reg) : (s.respondReg r).status = s.status := rfl
@[simp] theorem State.respondReg_width (s : State) (r : Reg) : (s.respondReg r).width = s.width := rfl
@[simp] theorem State.respondReg_height (s : State) (r : Reg) : (s.respondReg r).height = s.height := rfl
@[simp] theorem State.respondReg_srcAddr (s : State) (r : Reg) : (s.respondReg r).srcAddr = s.srcAddr := rfl
@[simp] theorem State.respondReg_srcLen (s : State) (r : Reg) : (s.respondReg r).srcLen = s.srcLen := rfl
@[simp] theorem State.respondReg_dstAddr (s : State) (r : Reg) : (s.respondReg r).dstAddr = s.dstAddr := rfl
@[simp] theorem State.respondReg_outLen (s : State) (r : Reg) : (s.respondReg r).outLen = s.outLen := rfl
@[simp] theorem State.respondReg_phase (s : State) (r : Reg) : (s.respondReg r).phase = s.phase := rfl
@[simp] theorem State.respondReg_latch (s : State) (r : Reg) : (s.respondReg r).latch = s.latch := rfl
@[simp] theorem State.respondReg_mem (s : State) (r : Reg) : (s.respondReg r).mem = s.mem := rfl
@[simp] theorem State.respondReg_plat (s : State) (r : Reg) : (s.respondReg r).plat = s.plat := rfl
@[simp] theorem State.respondReg_inbox (s : State) (r : Reg) : (s.respondReg r).inbox = s.inbox := rfl
@[simp] theorem State.respondReg_response (s : State) (r : Reg) : (s.respondReg r).response = .word (s.readReg r) := rfl
@[simp] theorem State.respondReg_openCmds (s : State) (r : Reg) : (s.respondReg r).openCmds = s.openCmds := rfl
@[simp] theorem State.respondReg_draws (s : State) (r : Reg) : (s.respondReg r).draws = s.draws := rfl

/-! ## The engine's completion (R195) -/

@[simp] theorem State.engineComplete_status (s : State) : (s.engineComplete).status = statusOfDone := rfl
@[simp] theorem State.engineComplete_width (s : State) : (s.engineComplete).width = s.width := rfl
@[simp] theorem State.engineComplete_height (s : State) : (s.engineComplete).height = s.height := rfl
@[simp] theorem State.engineComplete_srcAddr (s : State) : (s.engineComplete).srcAddr = s.srcAddr := rfl
@[simp] theorem State.engineComplete_srcLen (s : State) : (s.engineComplete).srcLen = s.srcLen := rfl
@[simp] theorem State.engineComplete_dstAddr (s : State) : (s.engineComplete).dstAddr = s.dstAddr := rfl
@[simp] theorem State.engineComplete_outLen (s : State) : (s.engineComplete).outLen = BitVec.ofNat 32 s.latch.total := rfl
@[simp] theorem State.engineComplete_phase (s : State) : (s.engineComplete).phase = .idle := rfl
@[simp] theorem State.engineComplete_latch (s : State) : (s.engineComplete).latch = s.latch := rfl
@[simp] theorem State.engineComplete_mem (s : State) : (s.engineComplete).mem = Memory.writeBytes s.mem s.latch.dst (encodeFile s.mem s.latch) := rfl
@[simp] theorem State.engineComplete_plat (s : State) : (s.engineComplete).plat = s.plat := rfl
@[simp] theorem State.engineComplete_inbox (s : State) : (s.engineComplete).inbox = s.inbox := rfl
@[simp] theorem State.engineComplete_response (s : State) : (s.engineComplete).response = s.response := rfl
@[simp] theorem State.engineComplete_openCmds (s : State) : (s.engineComplete).openCmds = s.openCmds := rfl
@[simp] theorem State.engineComplete_draws (s : State) : (s.engineComplete).draws = s.draws := rfl

/-! ## Register writes (R181 to R187, R197): only the five read-write registers can change -/

@[simp] theorem State.writeReg_status (s : State) (r : Reg) (v : Word) : (s.writeReg r v).status = s.status := by cases r <;> rfl
@[simp] theorem State.writeReg_outLen (s : State) (r : Reg) (v : Word) : (s.writeReg r v).outLen = s.outLen := by cases r <;> rfl
@[simp] theorem State.writeReg_phase (s : State) (r : Reg) (v : Word) : (s.writeReg r v).phase = s.phase := by cases r <;> rfl
@[simp] theorem State.writeReg_latch (s : State) (r : Reg) (v : Word) : (s.writeReg r v).latch = s.latch := by cases r <;> rfl
@[simp] theorem State.writeReg_mem (s : State) (r : Reg) (v : Word) : (s.writeReg r v).mem = s.mem := by cases r <;> rfl
@[simp] theorem State.writeReg_plat (s : State) (r : Reg) (v : Word) : (s.writeReg r v).plat = s.plat := by cases r <;> rfl
@[simp] theorem State.writeReg_inbox (s : State) (r : Reg) (v : Word) : (s.writeReg r v).inbox = s.inbox := by cases r <;> rfl
@[simp] theorem State.writeReg_response (s : State) (r : Reg) (v : Word) : (s.writeReg r v).response = s.response := by cases r <;> rfl
@[simp] theorem State.writeReg_openCmds (s : State) (r : Reg) (v : Word) : (s.writeReg r v).openCmds = s.openCmds := by cases r <;> rfl
@[simp] theorem State.writeReg_draws (s : State) (r : Reg) (v : Word) : (s.writeReg r v).draws = s.draws := by cases r <;> rfl
@[simp] theorem State.writeReg_width (s : State) (v : Word) : s.writeReg .width v = { s with width := v } := rfl
@[simp] theorem State.writeReg_height (s : State) (v : Word) : s.writeReg .height v = { s with height := v } := rfl
@[simp] theorem State.writeReg_srcAddr (s : State) (v : Word) : s.writeReg .srcAddr v = { s with srcAddr := v } := rfl
@[simp] theorem State.writeReg_srcLen (s : State) (v : Word) : s.writeReg .srcLen v = { s with srcLen := v } := rfl
@[simp] theorem State.writeReg_dstAddr (s : State) (v : Word) : s.writeReg .dstAddr v = { s with dstAddr := v } := rfl
@[simp] theorem State.writeReg_cmd_ignored (s : State) (v : Word) : s.writeReg .cmd v = s := rfl
@[simp] theorem State.writeReg_status_ignored (s : State) (v : Word) : s.writeReg .status v = s := rfl
@[simp] theorem State.writeReg_outLen_ignored (s : State) (v : Word) : s.writeReg .outLen v = s := rfl
@[simp] theorem State.writeReg_rsvd_ignored (s : State) (k : BitVec 3) (v : Word) : s.writeReg (.rsvd k) v = s := rfl

/-! ## Closing the interval of R255 and R256 -/

@[simp] theorem State.closeIfIdle_status (s : State) : s.closeIfIdle.status = s.status := rfl
@[simp] theorem State.closeIfIdle_width (s : State) : s.closeIfIdle.width = s.width := rfl
@[simp] theorem State.closeIfIdle_height (s : State) : s.closeIfIdle.height = s.height := rfl
@[simp] theorem State.closeIfIdle_srcAddr (s : State) : s.closeIfIdle.srcAddr = s.srcAddr := rfl
@[simp] theorem State.closeIfIdle_srcLen (s : State) : s.closeIfIdle.srcLen = s.srcLen := rfl
@[simp] theorem State.closeIfIdle_dstAddr (s : State) : s.closeIfIdle.dstAddr = s.dstAddr := rfl
@[simp] theorem State.closeIfIdle_outLen (s : State) : s.closeIfIdle.outLen = s.outLen := rfl
@[simp] theorem State.closeIfIdle_phase (s : State) : s.closeIfIdle.phase = s.phase := rfl
@[simp] theorem State.closeIfIdle_latch (s : State) : s.closeIfIdle.latch = s.latch := rfl
@[simp] theorem State.closeIfIdle_mem (s : State) : s.closeIfIdle.mem = s.mem := rfl
@[simp] theorem State.closeIfIdle_plat (s : State) : s.closeIfIdle.plat = s.plat := rfl
@[simp] theorem State.closeIfIdle_inbox (s : State) : s.closeIfIdle.inbox = s.inbox := rfl
@[simp] theorem State.closeIfIdle_response (s : State) : s.closeIfIdle.response = s.response := rfl
@[simp] theorem State.closeIfIdle_draws (s : State) : s.closeIfIdle.draws = s.draws := rfl
@[simp] theorem State.closeIfIdle_openCmds (s : State) :
    s.closeIfIdle.openCmds = if statusBusy s.status then s.openCmds else [] := rfl

/-! ## Reset (R250, R251) -/

@[simp] theorem State.takeReset_status (s : State) : s.takeReset.status = 0 := by unfold State.takeReset; split <;> rfl
@[simp] theorem State.takeReset_width (s : State) : s.takeReset.width = 0 := by unfold State.takeReset; split <;> rfl
@[simp] theorem State.takeReset_height (s : State) : s.takeReset.height = 0 := by unfold State.takeReset; split <;> rfl
@[simp] theorem State.takeReset_srcAddr (s : State) : s.takeReset.srcAddr = 0 := by unfold State.takeReset; split <;> rfl
@[simp] theorem State.takeReset_srcLen (s : State) : s.takeReset.srcLen = 0 := by unfold State.takeReset; split <;> rfl
@[simp] theorem State.takeReset_dstAddr (s : State) : s.takeReset.dstAddr = 0 := by unfold State.takeReset; split <;> rfl
@[simp] theorem State.takeReset_outLen (s : State) : s.takeReset.outLen = 0 := by unfold State.takeReset; split <;> rfl
@[simp] theorem State.takeReset_phase (s : State) : s.takeReset.phase = .idle := by unfold State.takeReset; split <;> rfl
@[simp] theorem State.takeReset_latch (s : State) : s.takeReset.latch = Latch.zero := by unfold State.takeReset; split <;> rfl
@[simp] theorem State.takeReset_plat (s : State) : s.takeReset.plat = s.plat := by unfold State.takeReset; split <;> rfl
@[simp] theorem State.takeReset_inbox (s : State) : s.takeReset.inbox = s.inbox := by unfold State.takeReset; split <;> rfl
@[simp] theorem State.takeReset_response (s : State) : s.takeReset.response = s.response := by unfold State.takeReset; split <;> rfl
@[simp] theorem State.takeReset_openCmds (s : State) : s.takeReset.openCmds = [] := by unfold State.takeReset; split <;> rfl
theorem State.takeReset_mem_idle {s : State} (h : s.phase = .idle) : s.takeReset.mem = s.mem := by
  simp [State.takeReset, h]

theorem State.takeReset_mem_busy {s : State} (h : s.phase = .busy) :
    s.takeReset.mem = Memory.writeBytes s.mem s.latch.dst (drawBytes s.draws s.latch.total) := by
  simp [State.takeReset, h]

theorem State.takeReset_draws_idle {s : State} (h : s.phase = .idle) : s.takeReset.draws = s.draws := by
  simp [State.takeReset, h]

theorem State.takeReset_draws_busy {s : State} (h : s.phase = .busy) :
    s.takeReset.draws = s.draws + s.latch.total := by
  simp [State.takeReset, h]

@[simp] theorem drawBytes_length (k n : Nat) : (drawBytes k n).length = n := by simp [drawBytes]

end Sys2Proof.Machine
end

