-- ==== Sys2Proof/Laws/Step.lean ====
section
/-!
SUPPORT. Everything one step can do: the inversion lemmas of the meanings, of the events and of `step`.
-/

namespace Sys2Proof.Machine

/-- Everything the meaning of a host access can do when it answers a next state. -/
theorem exec_cases {i : Instr} {s t : State} (h : exec i s = .next t) :
    t = s ∨ (∃ r v, t = s.writeReg r v) ∨ (∃ r, t = s.respondReg r) ∨ t = (s.respondReg .status).closeIfIdle ∨
      (s.phase = .idle ∧ ∃ c, t = s.raise c) ∨
      (s.phase = .idle ∧ ∃ m, (operandsOf m s).Valid ∧ t = s.accept (operandsOf m s)) := by
  have hstart : ∀ m, start m s = .next t → t = s ∨ (s.phase = .idle ∧ ∃ c, t = s.raise c) ∨
      (s.phase = .idle ∧ ∃ m, (operandsOf m s).Valid ∧ t = s.accept (operandsOf m s)) := by
    intro m hm
    rcases start_cases m s with ⟨-, e⟩ | ⟨p, e⟩ | ⟨p, e⟩ | ⟨-, e⟩ | ⟨p, v, e⟩ <;> rw [e] at hm <;> cases hm
    · exact .inl rfl
    · exact .inr (.inl ⟨p, _, rfl⟩)
    · exact .inr (.inl ⟨p, _, rfl⟩)
    · exact .inr (.inr ⟨p, m, v, rfl⟩)
  cases i
  case encodeTc ign =>
    rcases hstart .tc h with h | h | h
    · exact .inl h
    · exact .inr (.inr (.inr (.inr (.inl h))))
    · exact .inr (.inr (.inr (.inr (.inr h))))
  case encodeMono ign =>
    rcases hstart .mono h with h | h | h
    · exact .inl h
    · exact .inr (.inr (.inr (.inr (.inl h))))
    · exact .inr (.inr (.inr (.inr (.inr h))))
  case nop => cases h; exact .inl rfl
  case rdStatus => cases h; exact .inr (.inr (.inr (.inl rfl)))
  all_goals
    first
    | (cases h; exact .inr (.inl ⟨_, _, rfl⟩))
    | (cases h; exact .inr (.inr (.inl ⟨_, rfl⟩)))

/-- No host access touches system memory, the platform, the inbox or the draws. -/
theorem exec_frame {i : Instr} {s t : State} (h : exec i s = .next t) :
    t.mem = s.mem ∧ t.plat = s.plat ∧ t.inbox = s.inbox ∧ t.draws = s.draws := by
  rcases exec_cases h with rfl | ⟨r, v, rfl⟩ | ⟨r, rfl⟩ | rfl | ⟨-, c, rfl⟩ | ⟨-, m, -, rfl⟩ <;> simp

/-- A window access answers only through the meaning of the instruction it decodes to. -/
theorem runAccess_next {a : BusAccess} {s t : State} (h : runAccess a s = .next t) :
    ∃ i, fetchAccess a = .ok i ∧ exec i { s with response := .none } = .next t := by
  unfold runAccess at h
  split at h
  · exact ⟨_, by assumption, h⟩
  · cases h

/-- What a host access does to the open intervals of R255 and R256: only RD_STATUS closes any, only a START opens one. -/
theorem exec_openCmds {i : Instr} {s t : State} (h : exec i s = .next t) :
    (∃ d, i = .rdStatus d ∧ t = (s.respondReg .status).closeIfIdle) ∨ t.openCmds = s.openCmds ∨
      ∃ l, t.openCmds = l :: s.openCmds := by
  have hstart : ∀ m, start m s = .next t → t.openCmds = s.openCmds ∨ ∃ l, t.openCmds = l :: s.openCmds := by
    intro m hm
    rcases start_cases m s with ⟨-, e⟩ | ⟨-, e⟩ | ⟨-, e⟩ | ⟨-, e⟩ | ⟨-, -, e⟩ <;> rw [e] at hm <;> cases hm
    · exact .inl rfl
    · exact .inl rfl
    · exact .inl rfl
    · exact .inr ⟨_, rfl⟩
  cases i
  case encodeTc => exact .inr (hstart .tc h)
  case encodeMono => exact .inr (hstart .mono h)
  case rdStatus d => cases h; exact .inl ⟨d, rfl, rfl⟩
  all_goals (cases h; exact .inr (.inl rfl))

/-- An access that fetches an instruction is a write exactly where the instruction is one (R70). -/
theorem fetchAccess_isWrite {a : BusAccess} {i : Instr} (h : fetchAccess a = .ok i) : i.isWrite = a.write := by
  unfold fetchAccess at h
  split at h
  · split at h
    · rename_i hd
      cases h
      simp only [decodeWord, accessOff_accessWord, accessDir_accessWord, accessData_accessWord] at hd
      split at hd
      · cases hd
        cases a.write <;> simp only [decodeAccess, decodeWrite, decodeRead, decodeCommand]
        · split <;> rfl
        · split <;> first | rfl | (split <;> rfl)
      · cases hd
    · cases h
  · cases h

/-- A bus access answers only as the window access it stands for. -/
theorem runBus_next {w : Bool} {addr : Word} {n : Nat} {d : Word} {s t : State} (h : runBus w addr n d s = .next t) :
    ∃ off, s.plat.windowOffset addr = some off ∧ runAccess ⟨w, off, n, d⟩ s = .next t := by
  unfold runBus at h
  split at h
  · exact ⟨_, by assumption, h⟩
  · cases h

/-- A poll answers as one read, and where it misses, puts an engine turn and itself back in front. -/
theorem runPoll_next {off : BitVec 6} {mask value : Word} {s t : State} (h : runPoll off mask value s = .next t) :
    ∃ u, runAccess ⟨false, off, 32, 0⟩ s = .next u ∧
      (t = u ∨ t = { u with inbox := .engine :: .poll off mask value :: u.inbox }) := by
  unfold runPoll at h
  split at h
  · refine ⟨_, by assumption, ?_⟩
    cases h
    split
    · exact .inl rfl
    · exact .inr rfl
  · cases h
  · cases h

/-- What a host memory write does when it answers a next state. -/
theorem hostMemWrite_next {a : Nat} {bs : List Byte} {s t : State} (h : hostMemWrite a bs s = .next t) :
    a + bs.length ≤ Config.addrSpace ∧ s.meetsOpenSource a bs.length = false ∧ s.meetsOpenDest a bs.length = false ∧
      t = { s with mem := Memory.writeBytes s.mem a bs, response := .none } := by
  unfold hostMemWrite at h
  cases h1 : inAddrSpace a bs.length <;> cases h2 : s.plat.windowMeets a bs.length <;>
    cases h3 : s.meetsOpenSource a bs.length <;> cases h4 : s.meetsOpenDest a bs.length <;> simp [h1, h2, h3, h4] at h
  exact ⟨by simpa [inAddrSpace] using h1, rfl, rfl, h.symm⟩

/-- What a host memory read does when it answers a next state. -/
theorem hostMemRead_next {a n : Nat} {s t : State} (h : hostMemRead a n s = .next t) :
    a + n ≤ Config.addrSpace ∧ s.meetsOpenDest a n = false ∧
      t = { s with response := .bytes (Memory.readBytes s.mem a n) } := by
  unfold hostMemRead at h
  cases h1 : inAddrSpace a n <;> cases h2 : s.plat.windowMeets a n <;> cases h4 : s.meetsOpenDest a n <;>
    simp [h1, h2, h4] at h
  exact ⟨by simpa [inAddrSpace] using h1, rfl, h.symm⟩

/-- The engine's turn either completes the running command or changes nothing. -/
theorem engineTurn_cases (s : State) :
    (s.engineEnabled = true ∧ s.phase = .busy ∧ s.engineTurn = s.engineComplete) ∨
      (s.engineEnabled = false ∧ s.engineTurn = s) := by
  unfold State.engineTurn
  cases h : s.engineEnabled with
  | false => exact .inr ⟨rfl, by simp⟩
  | true =>
    refine .inl ⟨rfl, ?_, by simp⟩
    simp only [State.engineEnabled, Bool.and_eq_true, decide_eq_true_eq] at h
    exact h.1.1

/-- Everything one step can do when it answers a next state: the engine's turn, a host access (alone or as a poll), a host
memory action, a fence, or reset; `q` is the rest of the inbox. A host access is the one the next event names, by offset or
by bus address, or a poll's read. -/
theorem step_cases {s t : State} (h : step s = .next t) :
    (s.inbox = [] ∧ t = s.engineTurn) ∨
    ∃ e q, s.inbox = e :: q ∧
      ((∃ a i u, (s.NextAccess a ∨ ∃ off mask value, e = .poll off mask value ∧ a = ⟨false, off, 32, 0⟩) ∧
          fetchAccess a = .ok i ∧ exec i { s with inbox := q, response := .none } = .next u ∧ ∃ q', t = { u with inbox := q' }) ∨
        (∃ a bs, e = .memWrite a bs ∧ hostMemWrite a bs { s with inbox := q } = .next t) ∨
        (∃ a n, e = .memRead a n ∧ hostMemRead a n { s with inbox := q } = .next t) ∨
        (e = .fence ∧ t = { s with inbox := q, response := .none }) ∨
        (e = .engine ∧ t = State.engineTurn { s with inbox := q }) ∨
        (e = .reset ∧ t = State.takeReset { s with inbox := q })) := by
  unfold step at h
  split at h
  · rename_i hq
    cases h
    exact .inl ⟨hq, rfl⟩
  · rename_i e q hq
    refine .inr ⟨e, q, hq, ?_⟩
    cases e with
    | access a =>
      obtain ⟨i, hi, he⟩ := runAccess_next h
      exact .inl ⟨a, i, t, .inl (.inl (by rw [hq]; rfl)), hi, he, t.inbox, rfl⟩
    | bus w addr n d =>
      obtain ⟨off, ho, hr⟩ := runBus_next h
      obtain ⟨i, hi, he⟩ := runAccess_next hr
      exact .inl ⟨_, i, t, .inl (.inr ⟨addr, by rw [hq]; rfl, ho⟩), hi, he, t.inbox, rfl⟩
    | poll off mask value =>
      obtain ⟨u, hr, ht⟩ := runPoll_next h
      obtain ⟨i, hi, he⟩ := runAccess_next hr
      refine .inl ⟨_, i, u, .inr ⟨off, mask, value, rfl, rfl⟩, hi, he, ?_⟩
      rcases ht with rfl | rfl
      · exact ⟨t.inbox, rfl⟩
      · exact ⟨_, rfl⟩
    | memWrite a bs => exact .inr (.inl ⟨a, bs, rfl, h⟩)
    | memRead a n => exact .inr (.inr (.inl ⟨a, n, rfl, h⟩))
    | fence => cases h; exact .inr (.inr (.inr (.inl ⟨rfl, rfl⟩)))
    | engine => cases h; exact .inr (.inr (.inr (.inr (.inl ⟨rfl, rfl⟩))))
    | reset => cases h; exact .inr (.inr (.inr (.inr (.inr ⟨rfl, rfl⟩))))

/-! ## Runs -/

@[simp] theorem runSteps_zero (s : State) : runSteps 0 s = .next s := rfl

theorem runSteps_succ_of_next {k : Nat} {s t : State} (h : step s = .next t) : runSteps (k + 1) s = runSteps k t := by
  rw [runSteps, h]

end Sys2Proof.Machine
end

