-- ==== Sys2Proof/Tests/Slice0.lean ====
section
/-!
SUPPORT. The model's own tests. Expected results are those of 95_test_vectors.md (the vector is named) or were worked out
by hand from the rule named. The last part holds, for every statement of Certificates/Slice0/Obligations.lean that has
hypotheses, a witness that meets them.
-/

namespace Sys2Proof.Tests

open Sys2Proof Sys2Proof.Machine

/-! ## The states the tests start from -/

/-- A platform: `MemAdmit` holds for 0x1000 to 0x2FFF, as in 95_test_vectors.md section 3. -/
def plat0 : Platform := ⟨0x40000000, [⟨0x1000, 0x2000, true, true⟩]⟩

/-- IDLE, with the operand registers of one row of 95_test_vectors.md section 2.4. -/
def idleWith (w h len src dst : Word) : State :=
  { State.resetOn plat0 with width := w, height := h, srcLen := len, srcAddr := src, dstAddr := dst }

/-- IDLE, ready for the 1×1 command of WE1; the pixel is `10 20 30 40` of TC-P1. -/
def ready : State :=
  { idleWith 1 1 4 0x1000 0x2000 with mem := [(0x1000, 0x10), (0x1001, 0x20), (0x1002, 0x30), (0x1003, 0x40)] }

/-- The record of that command. -/
def rec11 : Latch := ⟨.tc, 1, 1, 0x1000, 4, 0x2000, 58⟩

/-- BUSY with that command. -/
def busy : State := { ready with status := 0x00000001, phase := .busy, latch := rec11, openCmds := [rec11] }

/-- BUSY with a 1×1 Monochrome command. -/
def busyMono : State :=
  { ready with
    status := 0x00000001, phase := .busy, latch := { rec11 with mode := .mono, total := 66 }
    openCmds := [{ rec11 with mode := .mono, total := 66 }] }

/-- BUSY with that command on a platform whose memory stops at 0x1FFF: stuck. -/
def stuck : State := { busy with plat := ⟨0x40000000, [⟨0x1000, 0x1000, true, true⟩]⟩ }

/-- DONE, the command's interval still open. -/
def doneState : State := { busy with status := 0x00000002, outLen := 58, phase := .idle }

/-- Every register holds a value of its own, the last command failed with Range. -/
def full : State :=
  { State.resetOn plat0 with
    status := 0x00000024, width := 0x11111111, height := 0x22222222, srcAddr := 0x33333333, srcLen := 0x44444444
    dstAddr := 0x55555555, outLen := 0 }

/-- The property holds of the next state. -/
def gives (o : Host.Outcome State Fault Refusal) (p : State → Bool) : Bool :=
  match o with
  | .next t => p t
  | .fault _ => false
  | .refused _ => false

/-- The step stops with the fault. -/
def faults (o : Host.Outcome State Fault Refusal) (f : Fault) : Bool :=
  match o with
  | .next _ => false
  | .fault g => g = f
  | .refused _ => false

/-- The step stops with the refusal. -/
def refuses (o : Host.Outcome State Fault Refusal) (r : Refusal) : Bool :=
  match o with
  | .next _ => false
  | .fault _ => false
  | .refused q => q = r

/-- `STATUS` and `OUT_LEN` after the step, and the phase IDLE exactly where STATUS.BUSY is clear. -/
def statusIs (v : Word) (t : State) : Bool :=
  t.status = v && t.outLen = 0 && (t.phase = .busy) = (v = 0x00000001)

/-! ## WellFormed: the terms the checks refuse -/

/-- OFF[5] clear: 0x1C is OUT_LEN's offset. -/
theorem test_wf_rejects_wrRsvd_low : (Instr.wrRsvd 0x1C 0).wf = false := by decide
/-- OFF[0] set. -/
theorem test_wf_rejects_wrRsvd_odd : (Instr.wrRsvd 0x21 0).wf = false := by decide
/-- OFF[1] set. -/
theorem test_wf_rejects_wrRsvd_half : (Instr.wrRsvd 0x3E 0).wf = false := by decide
theorem test_wf_rejects_rdRsvd_low : (Instr.rdRsvd 0x00 0).wf = false := by decide
theorem test_wf_rejects_rdRsvd_odd : (Instr.rdRsvd 0x3D 0).wf = false := by decide
theorem test_wf_rejects_rdRsvd_half : (Instr.rdRsvd 0x22 0).wf = false := by decide
theorem test_wf_accepts_ends : (Instr.wrRsvd 0x20 1).wf = true ∧ (Instr.rdRsvd 0x3C 0).wf = true := by decide

/-! ## Decoding: one word per row, from the rows' match fields (opcode_table.json) and R70 -/

theorem test_decode_commands :
    decodeWord 0x4000000000 = .ok (.nop false 0) ∧ decodeWord 0x40FFFFFFFE = .ok (.nop true 0x3FFFFFFF) ∧
    decodeWord 0x4000000005 = .ok (.encodeTc 1) ∧ decodeWord 0x4080000003 = .ok (.encodeMono 0x20000000) := by decide

theorem test_decode_writes :
    decodeWord 0x4400000001 = .ok (.wrStatus 1) ∧ decodeWord 0x4800000002 = .ok (.wrWidth 2) ∧
    decodeWord 0x4C00000003 = .ok (.wrHeight 3) ∧ decodeWord 0x5000000004 = .ok (.wrSrcAddr 4) ∧
    decodeWord 0x5400000005 = .ok (.wrSrcLen 5) ∧ decodeWord 0x5800000006 = .ok (.wrDstAddr 6) ∧
    decodeWord 0x5C00000007 = .ok (.wrOutLen 7) ∧ decodeWord 0x7C00000008 = .ok (.wrRsvd 0x3C 8) := by decide

theorem test_decode_reads :
    decodeWord 0x0000000000 = .ok (.rdCmd 0) ∧ decodeWord 0x0400000000 = .ok (.rdStatus 0) ∧
    decodeWord 0x0800000000 = .ok (.rdWidth 0) ∧ decodeWord 0x0C00000000 = .ok (.rdHeight 0) ∧
    decodeWord 0x1000000000 = .ok (.rdSrcAddr 0) ∧ decodeWord 0x1400000000 = .ok (.rdSrcLen 0) ∧
    decodeWord 0x1800000000 = .ok (.rdDstAddr 0) ∧ decodeWord 0x1C00000000 = .ok (.rdOutLen 0) ∧
    decodeWord 0x2000000000 = .ok (.rdRsvd 0x20 0) := by decide

/-- Misaligned offsets, a short frame, and a set bit 39 are rejected by name. -/
theorem test_decode_rejects :
    decodeWord 0x0600000000 = .error .offsetNotAligned ∧ decodeWord 0x4100000001 = .error .offsetNotAligned ∧
    decode [0, 0, 0, 0] = .error .notFiveBytes ∧ decode [0, 0, 0, 0, 0x80] = .error .aboveAccessWord := by decide

/-- The frame: DATA's lanes, lane 0 first (R57), then OFF and DIR. -/
theorem test_decode_bytes : decode [0x78, 0x56, 0x34, 0x12, 0x48] = .ok (.wrWidth 0x12345678) := by decide

theorem test_encode_words :
    encode (.encodeMono 0) = 0x4000000003 ∧ encode (.wrDstAddr 0x2000) = 0x5800002000 ∧ encode (.rdRsvd 0x3C 0) = 0x3C00000000 := by
  decide

theorem test_decode_table_word :
    decodeTableWord 40 0x4000000001 = some (.encodeTc 0) ∧ decodeTableWord 40 0x0600000000 = none := by decide

/-! ## Commands (95_test_vectors.md section 2.4) -/

/-- V-1 to V-8. -/
theorem test_start_invalid_buffer :
    gives (exec (.encodeTc 0) (idleWith 0 1 0 0x1000 0x2000)) (statusIs 0x00000014) ∧
    gives (exec (.encodeTc 0) (idleWith 1 0 0 0x1000 0x2000)) (statusIs 0x00000014) ∧
    gives (exec (.encodeTc 0) (idleWith 0xFFFFFFFF 1 0xFFFFFFFC 0x1000 0x2000)) (statusIs 0x00000014) ∧
    gives (exec (.encodeTc 0) (idleWith 0x80000000 1 0 0x1000 0x2000)) (statusIs 0x00000014) ∧
    gives (exec (.encodeTc 0) (idleWith 1 1 3 0x1000 0x2000)) (statusIs 0x00000014) ∧
    gives (exec (.encodeTc 0) (idleWith 1 1 8 0x1000 0x2000)) (statusIs 0x00000014) ∧
    gives (exec (.encodeTc 0) (idleWith 0x40000000 1 0 0x1000 0x2000)) (statusIs 0x00000014) ∧
    gives (exec (.encodeTc 0) (idleWith 0 1 0 0x1000 0xFFFFFFFF)) (statusIs 0x00000014) := by decide

/-- V-9, V-10, V-11, V-13, V-16, V-18. -/
theorem test_start_range :
    gives (exec (.encodeTc 0) (idleWith 1 0x3FFFFFFF 0xFFFFFFFC 0 0)) (statusIs 0x00000024) ∧
    gives (exec (.encodeMono 0) (idleWith 1 0x3FFFFFFF 0xFFFFFFFC 0 0)) (statusIs 0x00000024) ∧
    gives (exec (.encodeTc 0) (idleWith 1 1 4 0xFFFFFFFD 0x2000)) (statusIs 0x00000024) ∧
    gives (exec (.encodeTc 0) (idleWith 1 1 4 0x1000 0xFFFFFFF0)) (statusIs 0x00000024) ∧
    gives (exec (.encodeTc 0) (idleWith 1 0x3FFFFFF3 0xFFFFFFCC 0 0)) (statusIs 0x00000024) ∧
    gives (exec (.encodeMono 0) (idleWith 1 0x3FFFFFF1 0xFFFFFFC4 0 0)) (statusIs 0x00000024) := by decide

/-- V-12, V-14, V-19, and a Monochrome command: accepted. -/
theorem test_start_accepted :
    gives (exec (.encodeTc 0) (idleWith 1 1 4 0xFFFFFFFC 0x2000)) (statusIs 0x00000001) ∧
    gives (exec (.encodeTc 0) (idleWith 1 1 4 0x1000 0xFFFFFFC6)) (statusIs 0x00000001) ∧
    gives (exec (.encodeTc 0) (idleWith 0x4000 0x4000 0x40000000 0x10000000 0x80000000))
      (fun t => statusIs 0x00000001 t && t.latch.total = 0x30000036) ∧
    gives (exec (.encodeMono 0x3FFFFFFF) ready) (fun t => statusIs 0x00000001 t && t.latch = busyMono.latch) := by decide

/-- V-15, V-17: accepted by the checks, and the regions overlap. -/
theorem test_start_overlap :
    faults (exec (.encodeTc 0) (idleWith 1 0x3FFFFFF2 0xFFFFFFC8 0 0)) .overlap ∧
    faults (exec (.encodeMono 0) (idleWith 1 0x3FFFFFF0 0xFFFFFFC0 0 0)) .overlap := by decide

/-- RG-9: a START while BUSY is ignored. -/
theorem test_start_while_busy : gives (exec (.encodeMono 0) busy) (fun t => t = busy) := by decide

/-- RG-6, RG-7. -/
theorem test_nop : gives (exec (.nop true 0) full) (fun t => t = full) ∧ gives (exec (.nop false 7) doneState) (fun t => t = doneState) := by
  decide

/-! ## Register accesses (95_test_vectors.md section 2.5) -/

/-- RG-2, RG-8: the register takes the value, the latched record stays. -/
theorem test_operand_writes :
    gives (exec (.wrWidth 0xDEADBEEF) busy) (fun t => t.width = 0xDEADBEEF && t.latch.w = 1) ∧
    gives (exec (.wrHeight 7) full) (fun t => t.height = 7 && t.width = 0x11111111) ∧
    gives (exec (.wrSrcAddr 7) full) (fun t => t.srcAddr = 7 && t.dstAddr = 0x55555555) ∧
    gives (exec (.wrSrcLen 7) full) (fun t => t.srcLen = 7 && t.srcAddr = 0x33333333) ∧
    gives (exec (.wrDstAddr 7) full) (fun t => t.dstAddr = 7 && t.srcLen = 0x44444444) := by decide

/-- RG-3, RG-4, RG-5. -/
theorem test_ignored_writes :
    gives (exec (.wrStatus 0) full) (fun t => t = full) ∧ gives (exec (.wrOutLen 0) doneState) (fun t => t.outLen = 58) ∧
    gives (exec (.wrRsvd 0x20 0xFFFFFFFF) full) (fun t => t = full) := by decide

/-- Each read returns its own register. -/
theorem test_reads :
    gives (exec (.rdCmd 0) full) (fun t => t.response = .word 0) ∧
    gives (exec (.rdStatus 0) full) (fun t => t.response = .word 0x00000024) ∧
    gives (exec (.rdWidth 0) full) (fun t => t.response = .word 0x11111111) ∧
    gives (exec (.rdHeight 0) full) (fun t => t.response = .word 0x22222222) ∧
    gives (exec (.rdSrcAddr 0) full) (fun t => t.response = .word 0x33333333) ∧
    gives (exec (.rdSrcLen 0) full) (fun t => t.response = .word 0x44444444) ∧
    gives (exec (.rdDstAddr 0) full) (fun t => t.response = .word 0x55555555) ∧
    gives (exec (.rdOutLen 0) doneState) (fun t => t.response = .word 58) ∧
    gives (exec (.rdRsvd 0x3C 0) full) (fun t => t.response = .word 0) := by decide

/-- R255: a STATUS read with BUSY = 1 leaves the interval open, one with BUSY = 0 closes it. -/
theorem test_status_read_closes_interval :
    gives (exec (.rdStatus 0) busy) (fun t => t.openCmds = [rec11]) ∧
    gives (exec (.rdStatus 0) doneState) (fun t => t.openCmds = []) := by decide

/-! ## Steps -/

/-- RG-11: a 16-bit write and an access at 0x06; and a bus access past the window. -/
theorem test_step_refusals :
    refuses (step { full with inbox := [.access ⟨true, 0x08, 16, 1⟩] }) .accessWidth ∧
    refuses (step { full with inbox := [.access ⟨false, 0x06, 32, 0⟩] }) .accessAlignment ∧
    refuses (step { full with inbox := [.bus false 0x40000040 32 0] }) .outsideWindow ∧
    refuses (step { full with inbox := [.memRead 0x4000003F 1] }) .memoryActionInWindow := by decide

/-- The bus brings an access at REG_BASE + 0x14 to SRC_LEN. -/
theorem test_step_bus :
    gives (step { full with inbox := [.bus true 0x40000014 32 9] }) (fun t => t.srcLen = 9) := by decide

/-- The table's word runs as the next step. -/
theorem test_step_fetch_word :
    gives (step (State.reset.withFetchWord 40 0x4800000008)) (fun t => t.width = 8) := by decide

/-- The host duties of R255 and R256. -/
theorem test_step_host_duties :
    faults (step { busy with inbox := [.memWrite 0x0FFF [1, 2]] }) .srcWriteBusy ∧
    faults (step { doneState with inbox := [.memRead 0x2039 1] }) .dstAccessBusy ∧
    faults (step { busy with inbox := [.memWrite 0x2000 [1]] }) .dstAccessBusy ∧
    gives (step { busy with inbox := [.memRead 0x1000 2] }) (fun t => t.response = .bytes [0x10, 0x20]) ∧
    faults (step { full with inbox := [.memRead 0xFFFFFFFF 2] }) .hostOutsideMemory := by decide

/-- RG-12: reset while BUSY. The draws have no value to test. -/
theorem test_step_reset :
    gives (step { busy with inbox := [.reset] }) (fun t =>
      t.status = 0 && t.width = 0 && t.height = 0 && t.srcAddr = 0 && t.srcLen = 0 && t.dstAddr = 0 && t.outLen = 0 &&
        t.phase = .idle && t.latch = Latch.zero && t.draws = 58) := by decide

/-- An engine that memory does not admit is stuck. -/
theorem test_step_stuck : gives (step { stuck with inbox := [.engine] }) (fun t => t = stuck) := by decide

/-- TC-P1 by one engine step: STATUS, OUT_LEN and the pixel's bytes. -/
theorem test_step_engine :
    gives (step busy) (fun t =>
      t.status = 0x00000002 && t.outLen = 58 && t.phase = .idle && Memory.readBytes t.mem 0x2036 4 = [0x30, 0x20, 0x10, 0x00]) := by
  decide

/-- A poll that misses gives the engine a turn and reads again; one that hits goes on. -/
theorem test_step_poll :
    gives (step { busy with inbox := [.poll 0x04 1 0] }) (fun t => t.inbox = [.engine, .poll 0x04 1 0]) ∧
    gives (step { doneState with inbox := [.poll 0x04 1 0] }) (fun t => t.inbox = [] && t.response = .word 2) := by decide

/-! ## Sizes and files (95_test_vectors.md sections 1, 2.1 to 2.3 and 3) -/

theorem test_sizes_truecolor :
    (List.map (stride .tc) [1, 2, 3, 4, 5, 6, 7, 8, 1024] = [4, 8, 12, 12, 16, 20, 24, 24, 3072]) ∧
    fileSize .tc 1024 768 = 2359350 ∧ sizeImageTc 3 1 = 9 := by decide

theorem test_sizes_mono :
    (List.map (stride .mono) [1, 8, 9, 32, 33, 40, 41, 64, 65, 1024] = [4, 4, 4, 4, 8, 8, 8, 8, 12, 128]) ∧
    fileSize .mono 3 3 = 74 ∧ sizeImageMono 3 3 = 2 ∧ sizeImageMono 31 7 = 28 := by decide

/-- WE1's header. -/
theorem test_file_we1 :
    encodeFile [(0, 0xFF), (1, 0xFF), (2, 0xFF), (3, 0xFF)] ⟨.tc, 1, 1, 0, 4, 0x2000, 58⟩ =
      [0x42, 0x4D, 0x3A, 0, 0, 0, 0, 0, 0, 0, 0x36, 0, 0, 0, 0x28, 0, 0, 0, 1, 0, 0, 0, 1, 0, 0, 0, 1, 0, 0x18, 0,
       0, 0, 0, 0, 3, 0, 0, 0] ++ zeros 16 ++ [0xFF, 0xFF, 0xFF, 0] := by decide

/-- P3: 2×2, row order, B, G, R and padding. -/
theorem test_file_p3 :
    (encodeFile [(0, 0x10), (1, 0x20), (2, 0x30), (3, 0x40), (4, 0x11), (5, 0x21), (6, 0x31), (7, 0x41), (8, 0x12),
        (9, 0x22), (10, 0x32), (11, 0x42), (12, 0x13), (13, 0x23), (14, 0x33), (15, 0x43)] ⟨.tc, 2, 2, 0, 16, 0x2000, 70⟩).drop 34 =
      [0x0C, 0, 0, 0] ++ zeros 16 ++
        [0x32, 0x22, 0x12, 0x33, 0x23, 0x13, 0, 0, 0x30, 0x20, 0x10, 0x31, 0x21, 0x11, 0, 0] := by decide

/-- WE2: 8×1, starting white (black records are `00 00 00 FF`). -/
theorem test_file_we2 :
    encodeFile [(0, 0xFF), (7, 0xFF), (8, 0xFF), (15, 0xFF), (16, 0xFF), (23, 0xFF), (24, 0xFF), (31, 0xFF)]
        ⟨.mono, 8, 1, 0, 32, 0x2000, 66⟩ =
      [0x42, 0x4D, 0x42, 0, 0, 0, 0, 0, 0, 0, 0x3E, 0, 0, 0, 0x28, 0, 0, 0, 8, 0, 0, 0, 1, 0, 0, 0, 1, 0, 1, 0,
       0, 0, 0, 0, 1, 0, 0, 0] ++ zeros 16 ++ [0, 0, 0, 0, 0xFF, 0xFF, 0xFF, 0, 0xAA, 0, 0, 0] := by decide

/-- MO-3x3: partial bytes, bottom row first. -/
theorem test_file_mo3x3 :
    (encodeFile [(0, 0xFF), (8, 0xFF), (16, 0xFF), (24, 0xFF), (28, 0xFF), (32, 0xFF)] ⟨.mono, 3, 3, 0, 36, 0x2000, 74⟩).drop 62 =
      [0xE0, 0, 0, 0, 0x40, 0, 0, 0, 0xA0, 0, 0, 0] := by decide

/-- The red byte alone counts: `FE FE FE FF` is black, `FF 00 00 FF` white (section 2.3). -/
theorem test_file_red_only :
    packByte [(0, 0xFE), (1, 0xFE), (2, 0xFE), (3, 0xFF), (4, 0xFF), (7, 0xFF)] ⟨.mono, 2, 1, 0, 8, 0x2000, 66⟩ 0 0 = 0x40 := by
  decide

/-! ## Witnesses: states and operands that meet the hypotheses of the statements -/

theorem rec11_valid : rec11.Valid :=
  ⟨by decide, by decide, by decide, by decide, by decide, by decide, by decide, by decide, by decide, by decide⟩

theorem busyMono_latch_valid : busyMono.latch.Valid :=
  ⟨by decide, by decide, by decide, by decide, by decide, by decide, by decide, by decide, by decide, by decide⟩

theorem ready_inv : ready.Inv :=
  ⟨by decide, by decide, by decide, by decide, fun h => absurd h (by decide), fun h => absurd h (by decide)⟩

theorem busy_inv : busy.Inv := ⟨by decide, by decide, by decide, by decide, fun _ => rec11_valid, fun _ => by decide⟩

theorem busyMono_inv : busyMono.Inv :=
  ⟨by decide, by decide, by decide, by decide, fun _ => busyMono_latch_valid, fun _ => by decide⟩

theorem doneState_inv : doneState.Inv :=
  ⟨by decide, by decide, by decide, by decide, fun h => absurd h (by decide), fun h => absurd h (by decide)⟩

theorem busy_admitted : busy.latch.Admitted busy.plat :=
  ⟨Platform.admitsAll_iff.1 (by decide), Platform.admitsAll_iff.1 (by decide)⟩

theorem stuck_not_admitted : ¬ stuck.latch.Admitted stuck.plat :=
  fun h => absurd (h.2 0x2000 (by decide) (by decide)) (by decide)

theorem ready_checks (m : Mode) : ready.BufferValid ∧ ready.RangeValid m ∧ ready.RegionsApart m := by
  refine ⟨⟨by decide, by decide, by decide⟩, ?_, fun x hx => ?_⟩
  · cases m <;> exact ⟨by decide, by decide, by decide⟩
  · have h : regionsMeet 0x1000 4 0x2000 (ready.startTotal m) = true := regionsMeet_iff.2 ⟨x, hx⟩
    cases m <;> exact absurd h (by decide)

/-- Words of the window's first and last slot, misaligned ones beside them, and a width that is not 32. -/
theorem witness_AlignedAccessMatchesExactlyOneRow :
    (0x00 : BitVec 6).toNat % 4 = 0 ∧ (0x3C : BitVec 6).toNat % 4 = 0 ∧ (0x01 : BitVec 6).toNat % 4 ≠ 0 ∧
      (0x3F : BitVec 6).toNat % 4 ≠ 0 ∧ 16 ≠ 32 ∧ 33 ≠ 32 := by decide

theorem witness_DecodeOfEncodeIsIdentity :
    (Instr.wrRsvd 0x3C 0xFFFFFFFF).wf = true ∧ (Instr.rdRsvd 0x20 1).wf = true ∧ (Instr.nop true 0x3FFFFFFF).wf = true := by
  decide

theorem witness_EncodeOfDecodeIsIdentity :
    decodeWord 0x7CFFFFFFFF = .ok (.wrRsvd 0x3C 0xFFFFFFFF) ∧
      decode [0xFF, 0xFF, 0xFF, 0xFF, 0x7C] = .ok (.wrRsvd 0x3C 0xFFFFFFFF) := by decide

theorem witness_StepRunsTheDecodedAccess :
    ({ full with inbox := [.access ⟨true, 0x08, 32, 8⟩] } : State).inbox = .access ⟨true, 0x08, 32, 8⟩ :: [] ∧
      decodeWord (accessWord true 0x08 8) = .ok (.wrWidth 8) ∧ decodeTableWord 40 0x4800000008 = some (.wrWidth 8) := by
  decide

/-- The last word of the window and the address after it. -/
theorem witness_WindowIsSixtyFourBytesAtRegBase :
    (0x4000003C : Word) = plat0.regBase + (0x3C : BitVec 6).setWidth 32 ∧
      ∀ off : BitVec 6, (0x40000040 : Word) ≠ plat0.regBase + off.setWidth 32 := by decide

theorem witness_AccessOutsideInterfaceIsRefused :
    ({ full with inbox := [.access ⟨true, 0x08, 16, 1⟩] } : State).inbox = .access ⟨true, 0x08, 16, 1⟩ :: [] ∧
      16 ≠ 32 ∧ (0x06 : BitVec 6).toNat % 4 ≠ 0 := by decide

theorem witness_ByteLanesAreLittleEndian :
    wordBytes 0x12345678 = [0x78, 0x56, 0x34, 0x12] ∧ (wordBytes 0x12345678)[3]? = some (0x12 : Byte) ∧ 3 < 4 := by decide

/-- The first and the last reserved slot; the offset below the first is OUT_LEN's. -/
theorem witness_ReadOnlyRegisterWritesAreIgnored :
    0x20 ≤ (0x20 : BitVec 6).toNat ∧ (0x20 : BitVec 6).toNat % 4 = 0 ∧ 0x20 ≤ (0x3C : BitVec 6).toNat ∧
      (0x3C : BitVec 6).toNat % 4 = 0 ∧ ¬ 0x20 ≤ (0x1C : BitVec 6).toNat := by decide

theorem witness_RegisterReadsReturnTheValue :
    0x20 ≤ (0x20 : BitVec 6).toNat ∧ (0x20 : BitVec 6).toNat % 4 = 0 ∧ 0x20 ≤ (0x3C : BitVec 6).toNat ∧
      (0x3C : BitVec 6).toNat % 4 = 0 ∧ gives (exec (.rdOutLen 5) doneState) (fun t => t.response = .word 58) := by decide

theorem witness_NopChangesNothing : (0xFFFFFFFE : Word).getLsbD 0 = false := by decide

/-- A write and a read of one register, of two registers, and of STATUS and a reserved slot. -/
theorem witness_ReadAfterWriteAcrossTheWindow :
    (0x18 : BitVec 6).toNat % 4 = 0 ∧ (0x04 : BitVec 6).toNat % 4 = 0 ∧ (0x3C : BitVec 6).toNat % 4 = 0 ∧
      (0x18 : BitVec 6) ≠ 0x00 ∧ (0x04 : BitVec 6) ≠ 0x00 ∧ (0x3C : BitVec 6) ≠ 0x00 := by decide

theorem witness_SetupOrderDoesNotMatter :
    (Stmt.events (.setup 1 2 3 4 5)).reverse.Perm (Stmt.events (.setup 1 2 3 4 5)) := List.reverse_perm _

/-- Each of the five registers changes in some step, and reset changes all of them. -/
theorem witness_OperandRegistersChangeOnlyByTheirWrites :
    gives (step { full with inbox := [.access ⟨true, 0x08, 32, 1⟩] }) (fun t => t.width ≠ full.width) ∧
    gives (step { full with inbox := [.access ⟨true, 0x0C, 32, 1⟩] }) (fun t => t.height ≠ full.height) ∧
    gives (step { full with inbox := [.access ⟨true, 0x10, 32, 1⟩] }) (fun t => t.srcAddr ≠ full.srcAddr) ∧
    gives (step { full with inbox := [.access ⟨true, 0x14, 32, 1⟩] }) (fun t => t.srcLen ≠ full.srcLen) ∧
    gives (step { full with inbox := [.bus true 0x40000018 32 1] }) (fun t => t.dstAddr ≠ full.dstAddr) ∧
    gives (step { full with inbox := [.reset] }) (fun t => t.width ≠ full.width && t.dstAddr ≠ full.dstAddr) := by decide

theorem witness_TruecolorStartIsAccepted :
    ready.phase = .idle ∧ ready.BufferValid ∧ ready.RangeValid .tc ∧ ready.RegionsApart .tc :=
  ⟨rfl, ready_checks .tc⟩

theorem witness_MonochromeStartIsAccepted :
    ready.phase = .idle ∧ ready.BufferValid ∧ ready.RangeValid .mono ∧ ready.RegionsApart .mono :=
  ⟨rfl, ready_checks .mono⟩

/-- Each cause alone (V-1, V-2, V-5), and a valid buffer that starts. -/
theorem witness_InvalidBufferIsRaisedExactly :
    ¬ (idleWith 0 1 0 0x1000 0x2000).BufferValid ∧ ¬ (idleWith 1 0 0 0x1000 0x2000).BufferValid ∧
      ¬ (idleWith 1 1 3 0x1000 0x2000).BufferValid ∧ (idleWith 1 1 3 0x1000 0x2000).phase = .idle ∧
      ready.phase = .idle ∧ ready.BufferValid ∧ gives (exec (startInstr .tc 0) ready) (fun t => t.status ≠ 0x00000014) :=
  ⟨fun h => absurd h.1 (by decide), fun h => absurd h.2.1 (by decide), fun h => absurd h.2.2 (by decide), rfl, rfl,
    (ready_checks .tc).1, by decide⟩

/-- Each cause alone (V-9, V-11, V-13), and both ways to have none. -/
theorem witness_RangeIsRaisedExactly :
    ((idleWith 1 0x3FFFFFFF 0xFFFFFFFC 0 0).BufferValid ∧ ¬ (idleWith 1 0x3FFFFFFF 0xFFFFFFFC 0 0).RangeValid .mono) ∧
    ((idleWith 1 1 4 0xFFFFFFFD 0x2000).BufferValid ∧ ¬ (idleWith 1 1 4 0xFFFFFFFD 0x2000).RangeValid .tc) ∧
    ((idleWith 1 1 4 0x1000 0xFFFFFFF0).BufferValid ∧ ¬ (idleWith 1 1 4 0x1000 0xFFFFFFF0).RangeValid .tc) ∧
    ready.RangeValid .tc ∧ gives (exec (startInstr .tc 0) ready) (fun t => t.status ≠ 0x00000024) ∧
    gives (exec (startInstr .tc 0) (idleWith 0 1 0 0x1000 0xFFFFFFFF)) (fun t => t.status ≠ 0x00000024) :=
  ⟨⟨⟨by decide, by decide, by decide⟩, fun h => absurd h.1 (by decide)⟩,
    ⟨⟨by decide, by decide, by decide⟩, fun h => absurd h.2.1 (by decide)⟩,
    ⟨⟨by decide, by decide, by decide⟩, fun h => absurd h.2.2 (by decide)⟩,
    (ready_checks .tc).2.1, by decide, by decide⟩

/-- The destination starts at the source's last byte. -/
theorem witness_OverlapFaultsExactly :
    (idleWith 1 1 4 0x1000 0x1003).phase = .idle ∧ (idleWith 1 1 4 0x1000 0x1003).BufferValid ∧
      (idleWith 1 1 4 0x1000 0x1003).RangeValid .tc ∧ ¬ (idleWith 1 1 4 0x1000 0x1003).RegionsApart .tc ∧
      faults (exec (startInstr .tc 0) (idleWith 1 1 4 0x1000 0x1003)) .overlap :=
  ⟨rfl, ⟨by decide, by decide, by decide⟩, ⟨by decide, by decide, by decide⟩,
    fun h => h 0x1003 ⟨⟨by decide, by decide⟩, by decide, by decide⟩, by decide⟩

theorem witness_StartWhileBusyIsIgnored : busy.phase = .busy := by decide

theorem witness_TallestOneWideImageIsOutOfRange :
    (idleWith 1 0x3FFFFFFF 0xFFFFFFFC 0 0).phase = .idle ∧ (idleWith 1 0x3FFFFFFF 0xFFFFFFFC 0 0).width = 1 ∧
      (idleWith 1 0x3FFFFFFF 0xFFFFFFFC 0 0).height = 0x3FFFFFFF ∧ (idleWith 1 0x3FFFFFFF 0xFFFFFFFC 0 0).srcLen = 0xFFFFFFFC := by
  decide

/-- All three causes of a change. -/
theorem witness_BlockStateChangesOnlyByStartCompletionOrReset :
    gives (step { ready with inbox := [.access ⟨true, 0x00, 32, 1⟩] }) (fun t =>
      t.status ≠ ready.status && t.phase ≠ ready.phase && t.latch ≠ ready.latch) ∧
    gives (step busy) (fun t => t.status ≠ busy.status && t.outLen ≠ busy.outLen) ∧
    gives (step { doneState with inbox := [.reset] }) (fun t => t.status ≠ doneState.status && t.outLen ≠ doneState.outLen) := by
  decide

theorem witness_EngineCompletesTheCommand : busy.Inv ∧ busy.phase = .busy ∧ busy.latch.Admitted busy.plat :=
  ⟨busy_inv, rfl, busy_admitted⟩

theorem witness_EngineIsStuckWithoutAdmittedMemory : stuck.phase = .busy ∧ ¬ stuck.latch.Admitted stuck.plat :=
  ⟨rfl, stuck_not_admitted⟩

/-- A step that leaves the command running, and the one that completes it. -/
theorem witness_OnlyCompletionOrResetEndsACommand :
    gives (step { busy with inbox := [.access ⟨true, 0x00, 32, 3⟩] }) (fun t => t.phase = .busy) ∧
      gives (step busy) (fun t => t.phase = .idle) ∧ busy.phase = .busy ∧ busy.inbox.head? ≠ some .reset := by decide

theorem witness_WaitEndsWithDone : busy.Inv ∧ busy.phase = .busy ∧ busy.latch.Admitted busy.plat :=
  ⟨busy_inv, rfl, busy_admitted⟩

/-- The last byte of the running command's source region, across a START that is ignored, the completion and a reset. -/
theorem witness_SourceBytesStayWhileACommandRuns :
    ({ busy with inbox := [.reset] } : State).Inv ∧ busy.phase = .busy ∧
      gives (step { busy with inbox := [.reset] }) (fun t => Memory.read t.mem 0x1003 = 0x40) ∧
      gives (step busy) (fun t => Memory.read t.mem 0x1003 = 0x40) ∧ busy.latch.src ≤ 0x1003 ∧
      0x1003 < busy.latch.src + busy.latch.len :=
  ⟨⟨busy_inv.1, busy_inv.2, busy_inv.3, busy_inv.4, busy_inv.5, busy_inv.6⟩, rfl, by decide, by decide, by decide, by decide⟩

/-- A step of each outcome from IDLE: next, fault and refusal. -/
theorem witness_LatchIsUnobservableWhileIdle :
    doneState.phase = .idle ∧
      gives (step { ready with inbox := [.access ⟨true, 0x00, 32, 1⟩] }) (fun t => t.phase = .busy) ∧
      faults (step { doneState with inbox := [.memRead 0x2000 1] }) .dstAccessBusy ∧
      refuses (step { doneState with inbox := [.access ⟨false, 0x02, 32, 0⟩] }) .accessAlignment := by decide

/-- A record one of whose regions holds the window's last byte, or its first. -/
theorem witness_MemAdmitExcludesTheWindow :
    2 ^ 32 ≤ 2 ^ 32 ∧ 0x4000003F ≤ (plat0.regBase + (0x3F : BitVec 6).setWidth 32).toNat ∧
      (plat0.regBase + (0x3F : BitVec 6).setWidth 32).toNat < 0x4000003F + 58 ∧
      0x3FFFFFFD ≤ (plat0.regBase + (0x00 : BitVec 6).setWidth 32).toNat ∧
      (plat0.regBase + (0x00 : BitVec 6).setWidth 32).toNat < 0x3FFFFFFD + 4 := by decide

theorem witness_SizeFunctionsAreTheSpecs : 1 ≤ 1 ∧ pad4 0 = 0 ∧ pad4 1 = 3 ∧ stride .mono 33 = 8 := by decide

theorem witness_HeaderFieldsHaveTheirValues :
    2 ^ 31 - 1 < 2 ^ 31 ∧ 1 < 2 ^ 31 ∧ 2 ^ 32 - 1 < 2 ^ 32 ∧ fileSize .mono (2 ^ 31 - 1) 1 < 2 ^ 32 ∧
      fileSize .tc 1 1 < 2 ^ 32 := by decide

theorem witness_FileStatesItsOwnLength :
    busy.Inv ∧ busy.phase = .busy ∧ busy.latch.Admitted busy.plat ∧
      gives (step { busy with inbox := [.engine] }) (fun t => bytesToNat (Memory.readBytes t.mem 0x2002 4) = 58) :=
  ⟨busy_inv, rfl, busy_admitted, by decide⟩

theorem witness_ImageSizeFieldIsTheUnpaddedValue : rec11.Valid ∧ busyMono.latch.Valid := ⟨rec11_valid, busyMono_latch_valid⟩

/-- 3×2: rows 0 and 1, pixels 0 and 2, padding bytes 0 and 2 (stride 12). -/
theorem witness_TruecolorPixelBytes :
    1 < 2 ∧ 2 < 3 ∧ 2 < (4 - 3 * 3 % 4) % 4 ∧
      (encodeFile [(12, 0x77)] ⟨.tc, 3, 2, 0, 24, 0x2000, 78⟩)[54 + 0 * 12 + 2]? = some (0x77 : Byte) := by decide

/-- 10×2: the second, partial byte of the top row, its last pixel, and the last padding byte. -/
theorem witness_MonochromePixelBits :
    1 < 2 ∧ 1 < (10 + 7) / 8 ∧ 1 < (4 - 2 % 4) % 4 ∧
      (encodeFile [(36, 0xFF)] ⟨.mono, 10, 2, 0, 80, 0x2000, 70⟩)[62 + 1 * 4 + 1]? = some (0x40 : Byte) := by decide

theorem witness_MonochromeFileHoldsThePalette : busyMono.latch.mode = .mono := by decide

/-- Two memories that differ in the A byte, and (Monochrome) in G and B too. -/
theorem witness_UnusedPixelBytesHaveNoEffect :
    ∀ x y, x < 1 → y < 1 → ∀ m : Mode,
      let m1 : Memory := [(0, 0xFF), (3, 0x01)]
      let m2 : Memory := [(0, 0xFF), (1, if m = .mono then 0x05 else 0x00), (3, 0x02)]
      Memory.read m1 (0 + 4 * (y * 1 + x)) = Memory.read m2 (0 + 4 * (y * 1 + x)) ∧
        (m = .tc → Memory.read m1 (0 + 4 * (y * 1 + x) + 1) = Memory.read m2 (0 + 4 * (y * 1 + x) + 1) ∧
          Memory.read m1 (0 + 4 * (y * 1 + x) + 2) = Memory.read m2 (0 + 4 * (y * 1 + x) + 2)) := by
  intro x y hx hy m
  obtain rfl : x = 0 := by omega
  obtain rfl : y = 0 := by omega
  cases m <;> decide

/-- Two BUSY states with one record that differ in their registers and outside the source region. -/
theorem witness_EqualCommandsWriteEqualFiles :
    busy.Inv ∧ ({ busy with width := 9, draws := 5 } : State).Inv ∧ busy.phase = .busy ∧ busy.latch.Admitted busy.plat ∧
      gives (step { busy with inbox := [.engine] }) (fun _ => true) ∧
      gives (step { busy with width := 9, draws := 5, inbox := .engine :: [.fence] }) (fun _ => true) ∧
      gives (exec (startInstr .tc 0) (idleWith 1 1 3 0 0)) (fun t => t.status = 0x00000014) ∧
      gives (exec (startInstr .tc 7) { idleWith 1 1 3 0 0 with status := 0x00000002, outLen := 58, draws := 5 }) (fun t =>
        t.status = 0x00000014) :=
  ⟨busy_inv, ⟨busy_inv.1, busy_inv.2, busy_inv.3, busy_inv.4, busy_inv.5, busy_inv.6⟩, rfl, busy_admitted, by decide,
    by decide, by decide, by decide⟩

theorem witness_ResetClearsTheBlock :
    ({ full with inbox := [.reset] } : State).inbox = .reset :: [] ∧ full.phase = .idle ∧ busy.phase = .busy := by decide

theorem witness_ResetWhileBusyLeavesDraws :
    ({ busy with inbox := [.reset] } : State).Inv ∧ busy.phase = .busy ∧
      ({ busy with inbox := [.reset] } : State).inbox = .reset :: [] ∧ 57 < busy.latch.total :=
  ⟨⟨busy_inv.1, busy_inv.2, busy_inv.3, busy_inv.4, busy_inv.5, busy_inv.6⟩, rfl, rfl, by decide⟩

theorem witness_EveryRegisterReadsZeroAfterReset : (0x00 : BitVec 6).toNat % 4 = 0 ∧ (0x3C : BitVec 6).toNat % 4 = 0 := by
  decide

theorem witness_EveryStepKeepsTheInvariant : busy.Inv ∧ busyMono.Inv ∧ doneState.Inv ∧ gives (step busy) (fun _ => true) :=
  ⟨busy_inv, busyMono_inv, doneState_inv, by decide⟩

theorem witness_StatusFieldInvariants :
    busy.Inv ∧ statusBusy busy.status = true ∧ doneState.Inv ∧ doneState.outLen ≠ 0 :=
  ⟨busy_inv, by decide, doneState_inv, by decide⟩

theorem witness_StatusWordLayout :
    ready.Inv ∧ busy.Inv ∧ doneState.Inv ∧ statusWord false false true 2 = 0x00000024 :=
  ⟨ready_inv, busy_inv, doneState_inv, by decide⟩

/-- The three causes of a change of memory, and a START that answers a next state. -/
theorem witness_MemoryChangesOnlyByEngineHostOrReset :
    gives (exec (.encodeTc 0) ready) (fun _ => true) ∧ gives (step busy) (fun t => t.mem ≠ busy.mem) ∧
    gives (step { ready with inbox := [.memWrite 0x1000 [1]] }) (fun t => t.mem ≠ ready.mem) ∧
    gives (step { busy with inbox := [.reset] }) (fun _ => true) := by decide

theorem witness_CanonicalMemoriesWithEqualReadsAreEqual :
    Memory.wf [(0, 0x01), (0xFFFFFFFF, 0x02)] = true ∧ Memory.wf [(0, 0x00)] = false ∧ Memory.wf [(1, 0x01), (1, 0x02)] = false := by
  decide

/-- Up to the last byte of the address space. -/
theorem witness_HostMemoryWriteThenReadReturnsTheBytes :
    Memory.wf busy.mem = true ∧ 0xFFFFFFFE + [(1 : Byte), 0].length ≤ 2 ^ 32 ∧
      (∀ i, i < 2 → plat0.inWindow (BitVec.ofNat 32 (0xFFFFFFFE + i)) = false) ∧
      busy.meetsOpenSource 0xFFFFFFFE 2 = false ∧ busy.meetsOpenDest 0xFFFFFFFE 2 = false := by decide

/-- The last byte of the source region. -/
theorem witness_SourceWriteWhileOpenFaults :
    rec11 ∈ doneState.openCmds ∧ 0x1003 + [(1 : Byte), 0].length ≤ 2 ^ 32 ∧
      (∀ i, i < 2 → plat0.inWindow (BitVec.ofNat 32 (0x1003 + i)) = false) ∧ rec11.src ≤ 0x1003 ∧ 0x1003 < rec11.src + rec11.len := by
  decide

/-- The last byte of the destination region. -/
theorem witness_DestinationAccessWhileOpenFaults :
    rec11 ∈ busy.openCmds ∧ 0x2039 + [(1 : Byte)].length ≤ 2 ^ 32 ∧
      (∀ i, i < 1 → plat0.inWindow (BitVec.ofNat 32 (0x2039 + i)) = false) ∧ rec11.dst ≤ 0x2039 ∧
      0x2039 < rec11.dst + rec11.total ∧
      ∀ k ∈ busy.openCmds, ∀ y, 0x2039 ≤ y → y < 0x2039 + 1 → ¬ (k.src ≤ y ∧ y < k.src + k.len) := by
  refine ⟨by decide, by decide, by decide, by decide, by decide, fun k hk y h1 _ => ?_⟩
  obtain rfl : k = rec11 := List.mem_singleton.1 hk
  intro h
  have : y < 0x1000 + 4 := h.2
  omega

/-- The ways the interval ends: an access by offset, one by bus address, a poll's read, and reset. -/
theorem witness_HostDutyIntervalStaysOpen :
    rec11 ∈ doneState.openCmds ∧
      gives (step { doneState with inbox := [.access ⟨false, 0x04, 32, 0⟩] }) (fun t => !t.openCmds.contains rec11) ∧
      gives (step { doneState with inbox := [.bus false 0x40000004 32 0] }) (fun t => !t.openCmds.contains rec11) ∧
      gives (step { doneState with inbox := [.poll 0x04 1 0] }) (fun t => !t.openCmds.contains rec11) ∧
      gives (step { busy with inbox := [.reset] }) (fun t => !t.openCmds.contains rec11) := by decide

theorem witness_CommandRunsFromStartToDone :
    ready.Inv ∧ ready.phase = .idle ∧ ready.BufferValid ∧ ready.RangeValid .tc ∧ ready.RegionsApart .tc ∧
      (ready.startLatch .tc).Admitted ready.plat :=
  ⟨ready_inv, rfl, (ready_checks .tc).1, (ready_checks .tc).2.1, (ready_checks .tc).2.2,
    Platform.admitsAll_iff.1 (by decide), Platform.admitsAll_iff.1 (by decide)⟩

end Sys2Proof.Tests
end

section
/-!
PROOFS of the statements on 10_state.md: the invariant of the machine, the register window, and what changes the
operand registers, the block's state and the latched record.
-/

namespace Sys2Proof.Machine

/-! ## One step of the machine -/

/-- Where the inbox is empty, the step is the engine's turn. -/
theorem step_of_inbox_nil {s : State} (h : s.inbox = []) : step s = .next s.engineTurn := by
  rw [step, h]

/-- Where the inbox holds an event, the step is that event. -/
theorem step_of_inbox_cons {s : State} {e : Event} {q : List Event} (h : s.inbox = e :: q) :
    step s = runEvent e { s with inbox := q } := by
  rw [step, h]

/-- The engine's step is enabled exactly while BUSY with memory admitted for both regions (R195, R52). -/
theorem State.engineEnabled_iff {s : State} :
    s.engineEnabled = true ↔ s.phase = .busy ∧ s.latch.Admitted s.plat := by
  simp only [State.engineEnabled, Bool.and_eq_true, decide_eq_true_eq, Platform.admitsAll_iff, Latch.Admitted, and_assoc]

/-- The engine's turn while IDLE changes nothing. -/
theorem State.engineTurn_idle {s : State} (h : s.phase = .idle) : s.engineTurn = s := by
  rcases engineTurn_cases s with ⟨-, hb, -⟩ | ⟨-, e⟩
  · rw [h] at hb
    cases hb
  · exact e

/-! ## The values of STATUS (R25, R36) -/

/-- The five values, one by one. -/
theorem legalStatus_iff {v : Word} :
    legalStatus v = true ↔
      v = 0x00000000 ∨ v = 0x00000001 ∨ v = 0x00000002 ∨ v = 0x00000014 ∨ v = 0x00000024 := by
  simp [legalStatus]

/-- What the fields of a legal STATUS say of each other. -/
theorem legalStatus_fields {v : Word} (h : legalStatus v = true) :
    ¬ (statusDone v = true ∧ statusErr v = true) ∧
      (statusBusy v = true → statusDone v = false ∧ statusErr v = false ∧ statusErrcode v = 0) ∧
      (statusErr v = false ↔ statusErrcode v = 0) := by
  rcases legalStatus_iff.1 h with rfl | rfl | rfl | rfl | rfl <;> decide

@[simp] theorem legalStatus_statusOfBusy : legalStatus statusOfBusy = true := by decide
@[simp] theorem legalStatus_statusOfDone : legalStatus statusOfDone = true := by decide
@[simp] theorem legalStatus_statusOfError (c : ErrorCond) : legalStatus (statusOfError c) = true := by cases c <;> decide
@[simp] theorem legalStatus_zero : legalStatus 0#32 = true := by decide

@[simp] theorem statusBusy_statusOfBusy : statusBusy statusOfBusy = true := by decide
@[simp] theorem statusBusy_statusOfDone : statusBusy statusOfDone = false := by decide
@[simp] theorem statusBusy_statusOfError (c : ErrorCond) : statusBusy (statusOfError c) = false := by cases c <;> decide
@[simp] theorem statusBusy_zero : statusBusy 0#32 = false := by decide

@[simp] theorem statusDone_statusOfDone : statusDone statusOfDone = true := by decide

/-! ## The fields an operation leaves alone -/

/-- STATUS, OUT_LEN, the phase and `L` are those of `s`. -/
structure State.SameBlock (s t : State) : Prop where
  status : t.status = s.status
  outLen : t.outLen = s.outLen
  phase : t.phase = s.phase
  latch : t.latch = s.latch

theorem State.SameBlock.refl (s : State) : s.SameBlock s := ⟨rfl, rfl, rfl, rfl⟩

theorem State.sameBlock_writeReg (s : State) (r : Reg) (v : Word) : s.SameBlock (s.writeReg r v) :=
  ⟨by simp, by simp, by simp, by simp⟩

theorem State.sameBlock_respondReg (s : State) (r : Reg) : s.SameBlock (s.respondReg r) := ⟨rfl, rfl, rfl, rfl⟩

theorem State.sameBlock_closeIfIdle (s : State) : s.SameBlock s.closeIfIdle := ⟨rfl, rfl, rfl, rfl⟩

/-! ## The invariant is kept -/

/-- The invariant speaks of the block, of memory and, while BUSY, of the open intervals alone. -/
theorem State.Inv.of_sameBlock {s t : State} (h : s.Inv) (hb : s.SameBlock t) (hm : Memory.wf t.mem = true)
    (ho : s.phase = .busy → t.openCmds = s.openCmds) : t.Inv where
  mem_wf := hm
  status_legal := hb.status ▸ h.status_legal
  busy_iff := by rw [hb.status, hb.phase]; exact h.busy_iff
  outLen_done := by rw [hb.outLen, hb.status]; exact h.outLen_done
  latch_valid := by rw [hb.phase, hb.latch]; exact h.latch_valid
  latch_open := by
    rw [hb.phase, hb.latch]
    intro hp
    rw [ho hp]
    exact h.latch_open hp

/-- What the host is told and what happens next are no part of the invariant. -/
theorem State.Inv.with_host {s : State} (h : s.Inv) (q : List Event) (r : Response) :
    State.Inv { s with inbox := q, response := r } :=
  h.of_sameBlock ⟨rfl, rfl, rfl, rfl⟩ h.mem_wf fun _ => rfl

theorem State.Inv.writeReg {s : State} (h : s.Inv) (r : Reg) (v : Word) : (s.writeReg r v).Inv :=
  h.of_sameBlock (s.sameBlock_writeReg r v) (by simpa using h.mem_wf) fun _ => by simp

theorem State.Inv.respondReg {s : State} (h : s.Inv) (r : Reg) : (s.respondReg r).Inv :=
  h.of_sameBlock (s.sameBlock_respondReg r) h.mem_wf fun _ => rfl

/-- A STATUS read closes intervals only while BUSY = 0, when no command is running. -/
theorem State.Inv.closeIfIdle {s : State} (h : s.Inv) : s.closeIfIdle.Inv :=
  h.of_sameBlock s.sameBlock_closeIfIdle h.mem_wf fun hp => by simp [h.busy_iff.2 hp]

/-- An error, raised while IDLE, leaves STATUS 0x14 or 0x24 with BUSY = 0, and OUT_LEN 0 (R224). -/
theorem State.Inv.raise {s : State} (h : s.Inv) (hp : s.phase = .idle) (c : ErrorCond) : (s.raise c).Inv where
  mem_wf := h.mem_wf
  status_legal := by simp
  busy_iff := by simp [hp]
  outLen_done := by simp
  latch_valid := by simp [hp]
  latch_open := by simp [hp]

/-- Accepting a valid record starts a command whose interval is open (R191). -/
theorem State.Inv.accept {s : State} (h : s.Inv) {l : Latch} (hl : l.Valid) : (s.accept l).Inv where
  mem_wf := h.mem_wf
  status_legal := by simp
  busy_iff := by simp
  outLen_done := by simp
  latch_valid _ := hl
  latch_open _ := List.mem_cons_self

/-- Completion leaves STATUS 0x2, the phase IDLE, and a file inside the address space (R195). -/
theorem State.Inv.engineComplete {s : State} (h : s.Inv) (hp : s.phase = .busy) : s.engineComplete.Inv where
  mem_wf := engineComplete_mem_wf h.mem_wf (h.latch_valid hp)
  status_legal := by simp
  busy_iff := by simp
  outLen_done := by simp
  latch_valid := by simp
  latch_open := by simp

theorem State.Inv.engineTurn {s : State} (h : s.Inv) : s.engineTurn.Inv := by
  rcases engineTurn_cases s with ⟨-, hp, e⟩ | ⟨-, e⟩ <;> rw [e]
  · exact h.engineComplete hp
  · exact h

/-- Reset leaves memory in canonical form, also where it draws the destination bytes of a running command (R251). -/
theorem State.Inv.takeReset_mem_wf {s : State} (h : s.Inv) : Memory.wf s.takeReset.mem = true := by
  cases hp : s.phase with
  | idle => rw [State.takeReset_mem_idle hp]; exact h.mem_wf
  | busy =>
    rw [State.takeReset_mem_busy hp]
    apply Memory.writeBytes_wf h.mem_wf
    rw [drawBytes_length]
    exact (h.latch_valid hp).dst_fits

theorem State.Inv.takeReset {s : State} (h : s.Inv) : s.takeReset.Inv where
  mem_wf := h.takeReset_mem_wf
  status_legal := by simp
  busy_iff := by simp
  outLen_done := by simp
  latch_valid := by simp
  latch_open := by simp

/-- Every host access keeps the invariant. -/
theorem State.Inv.of_exec {i : Instr} {s t : State} (h : s.Inv) (he : exec i s = .next t) : t.Inv := by
  rcases exec_cases he with rfl | ⟨r, v, rfl⟩ | ⟨r, rfl⟩ | rfl | ⟨hp, c, rfl⟩ | ⟨-, m, hl, rfl⟩
  · exact h
  · exact h.writeReg r v
  · exact h.respondReg r
  · exact (h.respondReg .status).closeIfIdle
  · exact h.raise hp c
  · exact h.accept hl

theorem State.Inv.of_hostMemWrite {a : Nat} {bs : List Byte} {s t : State} (h : s.Inv)
    (hw : hostMemWrite a bs s = .next t) : t.Inv := by
  obtain ⟨ha, -, -, rfl⟩ := hostMemWrite_next hw
  exact h.of_sameBlock ⟨rfl, rfl, rfl, rfl⟩ (Memory.writeBytes_wf h.mem_wf ha) fun _ => rfl

theorem State.Inv.of_hostMemRead {a n : Nat} {s t : State} (h : s.Inv) (hr : hostMemRead a n s = .next t) : t.Inv := by
  obtain ⟨-, -, rfl⟩ := hostMemRead_next hr
  exact h.with_host _ _

/-- Every step keeps the invariant, whatever the event. -/
theorem State.Inv.of_step {s t : State} (h : s.Inv) (hs : step s = .next t) : t.Inv := by
  rcases step_cases hs with ⟨-, rfl⟩ | ⟨e, q, -, hacc | hwr | hrd | hfence | heng | hreset⟩
  · exact h.engineTurn
  · obtain ⟨a, i, u, -, -, he, q', rfl⟩ := hacc
    exact ((h.with_host q .none).of_exec he).with_host q' u.response
  · obtain ⟨a, bs, -, hw⟩ := hwr
    exact (h.with_host q s.response).of_hostMemWrite hw
  · obtain ⟨a, n, -, hr⟩ := hrd
    exact (h.with_host q s.response).of_hostMemRead hr
  · obtain ⟨-, rfl⟩ := hfence
    exact h.with_host q .none
  · obtain ⟨-, rfl⟩ := heng
    exact (h.with_host q s.response).engineTurn
  · obtain ⟨-, rfl⟩ := hreset
    exact (h.with_host q s.response).takeReset

/-- In a state of the invariant OUT_LEN is 0 where DONE = 0 (R36). -/
theorem State.Inv.outLen_eq_zero {s : State} (h : s.Inv) (hd : statusDone s.status = false) : s.outLen = 0 := by
  by_contra hne
  rw [h.outLen_done hne] at hd
  cases hd

/-! ## What each host access does -/

/-- The five read-write registers (R26 to R30). -/
def operandRegs : List Reg := [.width, .height, .srcAddr, .srcLen, .dstAddr]

/-- What the access is and does, in every state: a START, a write to an operand register, an access with no effect (NOP
and the ignored writes), a read, or the read of STATUS. -/
inductive ExecForm (i : Instr) : Prop where
  | command (m : Mode) (ign : BitVec 30) (hi : i = startInstr m ign) (he : ∀ s, exec i s = start m s)
  | operandWrite (r : Reg) (v : Word) (hr : r ∈ operandRegs) (hi : i = decodeWrite r.offset v)
      (he : ∀ s, exec i s = .next (s.writeReg r v))
  | noEffect (he : ∀ s, exec i s = .next s)
  | read (r : Reg) (he : ∀ s, exec i s = .next (s.respondReg r))
  | statusRead (he : ∀ s, exec i s = .next (s.respondReg .status).closeIfIdle)

theorem exec_form (i : Instr) : ExecForm i := by
  cases i with
  | encodeTc ign => exact .command .tc ign rfl fun _ => rfl
  | encodeMono ign => exact .command .mono ign rfl fun _ => rfl
  | wrWidth v => exact .operandWrite .width v (by decide) rfl fun _ => rfl
  | wrHeight v => exact .operandWrite .height v (by decide) rfl fun _ => rfl
  | wrSrcAddr v => exact .operandWrite .srcAddr v (by decide) rfl fun _ => rfl
  | wrSrcLen v => exact .operandWrite .srcLen v (by decide) rfl fun _ => rfl
  | wrDstAddr v => exact .operandWrite .dstAddr v (by decide) rfl fun _ => rfl
  | nop | wrStatus | wrOutLen | wrRsvd => exact .noEffect fun _ => rfl
  | rdStatus => exact .statusRead fun _ => rfl
  | rdCmd | rdWidth | rdHeight | rdSrcAddr | rdSrcLen | rdDstAddr | rdOutLen | rdRsvd => exact .read _ fun _ => rfl

@[simp] theorem startInstr_isWrite (m : Mode) (ign : BitVec 30) : (startInstr m ign).isWrite = true := by cases m <;> rfl

@[simp] theorem decodeCommand_isWrite (c : Word) : (decodeCommand c).isWrite = true := by
  unfold decodeCommand
  split <;> rfl

@[simp] theorem decodeWrite_isWrite (off : BitVec 6) (v : Word) : (decodeWrite off v).isWrite = true := by
  unfold decodeWrite
  split
  case h_1 => exact decodeCommand_isWrite v
  all_goals rfl

/-- A poll only reads: where a step's access is a write, the next event is that access. -/
theorem nextAccess_of_isWrite {s : State} {a : BusAccess} {e : Event} {i : Instr}
    (ha : s.NextAccess a ∨ ∃ off mask value, e = .poll off mask value ∧ a = ⟨false, off, 32, 0⟩)
    (hf : fetchAccess a = .ok i) (hw : i.isWrite = true) : s.NextAccess a := by
  rcases ha with ha | ⟨off, mask, value, -, rfl⟩
  · exact ha
  · have hread := fetchAccess_isWrite hf
    rw [hw] at hread
    cases hread

/-- What a step can do to the block: run a host access, give the engine its turn, touch only memory and the host's own
fields (a memory action or a fence), or reset. An access that writes is the one the next event names: a poll only reads. -/
theorem step_causes {s t : State} (h : step s = .next t) :
    (∃ a i q u q', (i.isWrite = true → s.NextAccess a) ∧ fetchAccess a = .ok i ∧
      exec i { s with inbox := q, response := .none } = .next u ∧ t = { u with inbox := q' }) ∨
    ((s.inbox = [] ∨ s.inbox.head? = some .engine) ∧ ∃ q, t = State.engineTurn { s with inbox := q }) ∨
    (∃ m q r, t = { s with mem := m, inbox := q, response := r }) ∨
    (s.inbox.head? = some .reset ∧ ∃ q, t = State.takeReset { s with inbox := q }) := by
  rcases step_cases h with ⟨hq, rfl⟩ | ⟨e, q, hq, hacc | hwr | hrd | hfence | heng | hreset⟩
  · exact .inr (.inl ⟨.inl hq, s.inbox, rfl⟩)
  · obtain ⟨a, i, u, ha, hf, he, q', rfl⟩ := hacc
    exact .inl ⟨a, i, q, u, q', nextAccess_of_isWrite ha hf, hf, he, rfl⟩
  · obtain ⟨a, bs, -, hw⟩ := hwr
    obtain ⟨-, -, -, rfl⟩ := hostMemWrite_next hw
    exact .inr (.inr (.inl ⟨_, q, .none, rfl⟩))
  · obtain ⟨a, n, -, hr⟩ := hrd
    obtain ⟨-, -, rfl⟩ := hostMemRead_next hr
    exact .inr (.inr (.inl ⟨s.mem, q, _, rfl⟩))
  · obtain ⟨-, rfl⟩ := hfence
    exact .inr (.inr (.inl ⟨s.mem, q, .none, rfl⟩))
  · obtain ⟨rfl, rfl⟩ := heng
    exact .inr (.inl ⟨.inr (by rw [hq]; rfl), q, rfl⟩)
  · obtain ⟨rfl, rfl⟩ := hreset
    exact .inr (.inr (.inr ⟨by rw [hq]; rfl, q, rfl⟩))

/-! ## What changes the operand registers -/

/-- WIDTH, HEIGHT, SRC_ADDR, SRC_LEN and DST_ADDR are those of `s`. -/
structure State.SameOperands (s t : State) : Prop where
  width : t.width = s.width
  height : t.height = s.height
  srcAddr : t.srcAddr = s.srcAddr
  srcLen : t.srcLen = s.srcLen
  dstAddr : t.dstAddr = s.dstAddr

theorem State.SameOperands.readReg_eq {s t : State} (h : s.SameOperands t) {r : Reg} (hr : r ∈ operandRegs) :
    t.readReg r = s.readReg r := by
  simp only [operandRegs, List.mem_cons, List.not_mem_nil, or_false] at hr
  rcases hr with rfl | rfl | rfl | rfl | rfl
  · exact h.width
  · exact h.height
  · exact h.srcAddr
  · exact h.srcLen
  · exact h.dstAddr

theorem State.readReg_writeReg_same (s : State) {r : Reg} (hr : r ∈ operandRegs) (v : Word) :
    (s.writeReg r v).readReg r = v := by
  simp only [operandRegs, List.mem_cons, List.not_mem_nil, or_false] at hr
  rcases hr with rfl | rfl | rfl | rfl | rfl <;> rfl

theorem State.readReg_writeReg_other (s : State) {r r' : Reg} (hne : r' ≠ r) (v : Word) :
    (s.writeReg r v).readReg r' = s.readReg r' := by
  cases r <;> cases r' <;> simp_all [State.readReg]

theorem start_sameOperands {m : Mode} {s t : State} (h : start m s = .next t) : s.SameOperands t := by
  rcases start_cases m s with ⟨-, e⟩ | ⟨-, e⟩ | ⟨-, e⟩ | ⟨-, e⟩ | ⟨-, -, e⟩ <;> rw [e] at h <;> cases h <;>
    exact ⟨rfl, rfl, rfl, rfl, rfl⟩

/-- A host access writes one operand register, by its own write, or none. -/
theorem exec_operands {i : Instr} {s t : State} (h : exec i s = .next t) :
    (∃ r ∈ operandRegs, ∃ v, i = decodeWrite r.offset v ∧ t = s.writeReg r v) ∨ s.SameOperands t := by
  cases exec_form i with
  | command m ign hi he => exact .inr (start_sameOperands (he s ▸ h))
  | operandWrite r v hr hi he => exact .inl ⟨r, hr, v, hi, by rw [he] at h; cases h; rfl⟩
  | noEffect he | read r he | statusRead he => rw [he] at h; cases h; exact .inr ⟨rfl, rfl, rfl, rfl, rfl⟩

theorem engineTurn_sameOperands (s : State) : s.SameOperands s.engineTurn := by
  rcases engineTurn_cases s with ⟨-, -, e⟩ | ⟨-, e⟩ <;> rw [e] <;> exact ⟨rfl, rfl, rfl, rfl, rfl⟩

/-- A step that changes an operand register is reset, or the register's own write. -/
theorem step_changes_operand {s t : State} (h : step s = .next t) {r : Reg} (hr : r ∈ operandRegs)
    (hne : t.readReg r ≠ s.readReg r) :
    s.inbox.head? = some .reset ∨
      ∃ a v, s.NextAccess a ∧ fetchAccess a = .ok (decodeWrite r.offset v) ∧ t.readReg r = v := by
  have changed : ¬ s.SameOperands t := fun hsame => hne (hsame.readReg_eq hr)
  rcases step_causes h with ⟨a, i, q, u, q', ha, hf, he, rfl⟩ | ⟨-, q, rfl⟩ | ⟨m, q, r', rfl⟩ | ⟨hq, -⟩
  · rcases exec_operands he with ⟨r', hr', v, rfl, rfl⟩ | hsame
    · by_cases heq : r = r'
      · subst heq
        exact .inr ⟨a, v, ha (by simp), hf, State.readReg_writeReg_same _ hr v⟩
      · exact absurd (State.readReg_writeReg_other _ heq v) hne
    · exact absurd ⟨hsame.width, hsame.height, hsame.srcAddr, hsame.srcLen, hsame.dstAddr⟩ changed
  · have hsame := engineTurn_sameOperands { s with inbox := q }
    exact absurd ⟨hsame.width, hsame.height, hsame.srcAddr, hsame.srcLen, hsame.dstAddr⟩ changed
  · exact absurd ⟨rfl, rfl, rfl, rfl, rfl⟩ changed
  · exact .inl hq

/-! ## What changes the block's state -/

/-- A host access changes STATUS, OUT_LEN, the phase or `L` only as a START while IDLE. -/
theorem exec_block {i : Instr} {s t : State} (h : exec i s = .next t) :
    s.SameBlock t ∨ (s.phase = .idle ∧ ∃ m ign, i = startInstr m ign) := by
  cases exec_form i with
  | command m ign hi he =>
    cases hp : s.phase with
    | idle => exact .inr ⟨rfl, m, ign, hi⟩
    | busy =>
      rw [he, start, hp] at h
      cases h
      exact .inl (.refl s)
  | operandWrite r v hr hi he => rw [he] at h; cases h; exact .inl (s.sameBlock_writeReg r v)
  | noEffect he | read r he | statusRead he => rw [he] at h; cases h; exact .inl ⟨rfl, rfl, rfl, rfl⟩

/-- The engine's turn changes the block only by completing the running command, which leaves STATUS 0x2, the phase IDLE
and `L` as it was. -/
theorem engineTurn_block (s : State) :
    s.SameBlock s.engineTurn ∨
      (s.phase = .busy ∧ s.latch.Admitted s.plat ∧ s.engineTurn.status = 0x00000002 ∧ s.engineTurn.phase = .idle ∧
        s.engineTurn.latch = s.latch) := by
  rcases engineTurn_cases s with ⟨hen, -, e⟩ | ⟨-, e⟩ <;> rw [e]
  · obtain ⟨hp, ha⟩ := State.engineEnabled_iff.1 hen
    exact .inr ⟨hp, ha, rfl, rfl, rfl⟩
  · exact .inl (.refl s)

/-- A step that changes the block's state is a START while IDLE, the engine's completion, or reset. -/
theorem step_block {s t : State} (h : step s = .next t) :
    s.SameBlock t ∨
      (s.phase = .idle ∧ ∃ a m ign, s.NextAccess a ∧ fetchAccess a = .ok (startInstr m ign)) ∨
      (s.phase = .busy ∧ s.latch.Admitted s.plat ∧ (s.inbox = [] ∨ s.inbox.head? = some .engine) ∧
        t.status = 0x00000002 ∧ t.phase = .idle ∧ t.latch = s.latch) ∨
      (s.inbox.head? = some .reset ∧ t.status = 0x00000000 ∧ t.outLen = 0 ∧ t.phase = .idle) := by
  rcases step_causes h with ⟨a, i, q, u, q', ha, hf, he, rfl⟩ | ⟨hq, q, rfl⟩ | ⟨m, q, r, rfl⟩ | ⟨hq, q, rfl⟩
  · rcases exec_block he with hsame | ⟨hp, m, ign, rfl⟩
    · exact .inl ⟨hsame.status, hsame.outLen, hsame.phase, hsame.latch⟩
    · exact .inr (.inl ⟨hp, a, m, ign, ha (by simp), hf⟩)
  · rcases engineTurn_block { s with inbox := q } with hsame | ⟨hp, hadm, hdone⟩
    · exact .inl ⟨hsame.status, hsame.outLen, hsame.phase, hsame.latch⟩
    · exact .inr (.inr (.inl ⟨hp, hadm, hq, hdone⟩))
  · exact .inl ⟨rfl, rfl, rfl, rfl⟩
  · exact .inr (.inr (.inr ⟨hq, by simp⟩))

/-! ## The latched record while IDLE (R34) -/

/-- The state with another latched record. -/
def State.withLatch (s : State) (l : Latch) : State := { s with latch := l }

@[simp] theorem State.withLatch_phase (s : State) (l : Latch) : (s.withLatch l).phase = s.phase := rfl
@[simp] theorem State.withLatch_inbox (s : State) (l : Latch) : (s.withLatch l).inbox = s.inbox := rfl
@[simp] theorem State.withLatch_plat (s : State) (l : Latch) : (s.withLatch l).plat = s.plat := rfl
@[simp] theorem State.withLatch_response (s : State) (l : Latch) : (s.withLatch l).response = s.response := rfl

theorem State.writeReg_withLatch (s : State) (l : Latch) (r : Reg) (v : Word) :
    (s.withLatch l).writeReg r v = (s.writeReg r v).withLatch l := by cases r <;> rfl

theorem State.respondReg_withLatch (s : State) (l : Latch) (r : Reg) :
    (s.withLatch l).respondReg r = (s.respondReg r).withLatch l := by cases r <;> rfl

theorem State.closeIfIdle_withLatch (s : State) (l : Latch) :
    (s.withLatch l).closeIfIdle = s.closeIfIdle.withLatch l := rfl

theorem State.takeReset_withLatch_idle {s : State} (hp : s.phase = .idle) (l : Latch) :
    (s.withLatch l).takeReset = s.takeReset := by
  simp only [State.takeReset, State.withLatch, hp]

/-- The second outcome is the first but for `L`, and the same in `L` too where a command runs. -/
def AgreesButLatch (o o' : Host.Outcome State Fault Refusal) : Prop :=
  match o with
  | .next t => ∃ l, o' = .next (t.withLatch l) ∧ (t.phase = .busy → l = t.latch)
  | .fault f => o' = .fault f
  | .refused r => o' = .refused r

theorem AgreesButLatch.refl (o : Host.Outcome State Fault Refusal) : AgreesButLatch o o := by
  cases o with
  | next t => exact ⟨t.latch, rfl, fun _ => rfl⟩
  | fault f => rfl
  | refused r => rfl

theorem AgreesButLatch.of_idle {t : State} (hp : t.phase = .idle) (l : Latch) :
    AgreesButLatch (.next t) (.next (t.withLatch l)) :=
  ⟨l, rfl, fun hb => by rw [hp] at hb; cases hb⟩

/-- A check that does not read `L` sends both runs the same way. -/
theorem AgreesButLatch.ite {c : Prop} [Decidable c] {o₁ o₂ o₁' o₂' : Host.Outcome State Fault Refusal}
    (h₁ : AgreesButLatch o₁ o₁') (h₂ : AgreesButLatch o₂ o₂') :
    AgreesButLatch (if c then o₁ else o₂) (if c then o₁' else o₂') := by
  split
  · exact h₁
  · exact h₂

/-- `StartCommand` reads the operand registers, not `L`; an accepted command overwrites `L` (R191). -/
theorem startCommand_agrees (m : Mode) {s : State} (hp : s.phase = .idle) (l : Latch) :
    AgreesButLatch (startCommand m s) (startCommand m (s.withLatch l)) :=
  .ite (.of_idle (t := s.raise .invalidBuffer) hp l) <|
    .ite (.of_idle (t := s.raise .range) hp l) <| .ite (.refl _) (.refl (.next (s.accept (operandsOf m s))))

theorem start_agrees (m : Mode) {s : State} (hp : s.phase = .idle) (l : Latch) :
    AgreesButLatch (start m s) (start m (s.withLatch l)) := by
  simp only [start, State.withLatch_phase, hp]
  exact startCommand_agrees m hp l

theorem exec_agrees (i : Instr) {s : State} (hp : s.phase = .idle) (l : Latch) :
    AgreesButLatch (exec i s) (exec i (s.withLatch l)) := by
  cases exec_form i with
  | command m ign hi he =>
    rw [he, he]
    exact start_agrees m hp l
  | operandWrite r v hr hi he =>
    rw [he, he, State.writeReg_withLatch]
    exact .of_idle (by simpa using hp) l
  | noEffect he =>
    rw [he, he]
    exact .of_idle hp l
  | read r he =>
    rw [he, he, State.respondReg_withLatch]
    exact .of_idle (by simpa using hp) l
  | statusRead he =>
    rw [he, he, State.respondReg_withLatch, State.closeIfIdle_withLatch]
    exact .of_idle (by simpa using hp) l

theorem runAccess_agrees (a : BusAccess) {s : State} (hp : s.phase = .idle) (l : Latch) :
    AgreesButLatch (runAccess a s) (runAccess a (s.withLatch l)) := by
  unfold runAccess
  cases fetchAccess a with
  | ok i => exact exec_agrees i (s := { s with response := .none }) hp l
  | error r => rfl

theorem runBus_agrees (w : Bool) (addr : Word) (n : Nat) (d : Word) {s : State} (hp : s.phase = .idle) (l : Latch) :
    AgreesButLatch (runBus w addr n d s) (runBus w addr n d (s.withLatch l)) := by
  rw [runBus, runBus, State.withLatch_plat]
  cases s.plat.windowOffset addr with
  | some off => exact runAccess_agrees ⟨w, off, n, d⟩ hp l
  | none => rfl

/-- The two polls read the same response, so both match or both read again. -/
theorem runPoll_agrees (off : BitVec 6) (mask value : Word) {s : State} (hp : s.phase = .idle) (l : Latch) :
    AgreesButLatch (runPoll off mask value s) (runPoll off mask value (s.withLatch l)) := by
  have hread := runAccess_agrees ⟨false, off, 32, 0⟩ hp l
  rw [runPoll, runPoll]
  cases hr : runAccess ⟨false, off, 32, 0⟩ s with
  | next t =>
    rw [hr] at hread
    obtain ⟨l', hr', hl'⟩ := hread
    rw [hr']
    dsimp only
    have hresp : pollHit mask value (t.withLatch l').response = pollHit mask value t.response := rfl
    by_cases hhit : pollHit mask value t.response = true
    · rw [if_pos hhit, if_pos (hresp.trans hhit)]
      exact ⟨l', rfl, hl'⟩
    · rw [if_neg hhit, if_neg (hresp ▸ hhit)]
      exact ⟨l', rfl, hl'⟩
  | fault f =>
    rw [hr] at hread
    rw [show runAccess _ (s.withLatch l) = .fault f from hread]
    rfl
  | refused r =>
    rw [hr] at hread
    rw [show runAccess _ (s.withLatch l) = .refused r from hread]
    rfl

theorem hostMemWrite_agrees (a : Nat) (bs : List Byte) {s : State} (hp : s.phase = .idle) (l : Latch) :
    AgreesButLatch (hostMemWrite a bs s) (hostMemWrite a bs (s.withLatch l)) :=
  .ite (.refl _) <| .ite (.refl _) <| .ite (.refl _) <| .ite (.refl _) <|
    .of_idle (t := { s with mem := Memory.writeBytes s.mem a bs, response := .none }) hp l

theorem hostMemRead_agrees (a n : Nat) {s : State} (hp : s.phase = .idle) (l : Latch) :
    AgreesButLatch (hostMemRead a n s) (hostMemRead a n (s.withLatch l)) :=
  .ite (.refl _) <| .ite (.refl _) <| .ite (.refl _) <|
    .of_idle (t := { s with response := .bytes (Memory.readBytes s.mem a n) }) hp l

theorem engineTurn_agrees {s : State} (hp : s.phase = .idle) (l : Latch) :
    AgreesButLatch (.next s.engineTurn) (.next (s.withLatch l).engineTurn) := by
  rw [State.engineTurn_idle hp, State.engineTurn_idle (by simpa using hp)]
  exact .of_idle hp l

/-- Whatever the event, `L` has no effect while IDLE. -/
theorem runEvent_agrees (e : Event) {s : State} (hp : s.phase = .idle) (l : Latch) :
    AgreesButLatch (runEvent e s) (runEvent e (s.withLatch l)) := by
  cases e with
  | access a => exact runAccess_agrees a hp l
  | bus w addr n d => exact runBus_agrees w addr n d hp l
  | poll off mask value => exact runPoll_agrees off mask value hp l
  | memWrite a bs => exact hostMemWrite_agrees a bs hp l
  | memRead a n => exact hostMemRead_agrees a n hp l
  | fence => exact .of_idle (t := { s with response := .none }) hp l
  | engine => exact engineTurn_agrees hp l
  | reset =>
    rw [runEvent, runEvent, State.takeReset_withLatch_idle hp]
    exact .refl _

theorem step_agrees {s : State} (hp : s.phase = .idle) (l : Latch) :
    AgreesButLatch (step s) (step (s.withLatch l)) := by
  cases hq : s.inbox with
  | nil =>
    rw [step_of_inbox_nil hq, step_of_inbox_nil (by simpa using hq)]
    exact engineTurn_agrees hp l
  | cons e q =>
    rw [step_of_inbox_cons hq, step_of_inbox_cons (by simpa using hq)]
    exact runEvent_agrees e (s := { s with inbox := q }) hp l

end Sys2Proof.Machine

open Sys2Proof Sys2Proof.Machine

/-- Settles O47: each of the model's operations keeps the invariant, and a step is one of them. -/
theorem everyStepKeepsTheInvariant : Obligations.EveryStepKeepsTheInvariant :=
  fun _ _ h hs => h.of_step hs

/-- Settles O48, from the five values of STATUS and the invariant's clauses on the phase and OUT_LEN. -/
theorem statusFieldInvariants : Obligations.StatusFieldInvariants := by
  intro s h
  obtain ⟨hexcl, hbusy, herr⟩ := legalStatus_fields h.status_legal
  refine ⟨hexcl, fun hb => ?_, herr, h.outLen_done, h.busy_iff, legalStatus_iff.1 h.status_legal⟩
  obtain ⟨hd, he, hc⟩ := hbusy hb
  exact ⟨hd, he, hc, h.outLen_eq_zero hd⟩

/-- Settles O8: the window offset of a host address is `off` exactly at `REG_BASE + off`, and a bus access runs as the
window access at that offset or is refused. -/
theorem windowIsSixtyFourBytesAtRegBase : Obligations.WindowIsSixtyFourBytesAtRegBase := by
  intro s rest write addr width data hq
  have hbus : step s = runBus write addr width data { s with inbox := rest } := step_of_inbox_cons hq
  rw [hbus, runBus]
  constructor
  · intro off haddr
    rw [Platform.windowOffset_eq_some.2 haddr]
    rfl
  · intro hout
    cases ho : s.plat.windowOffset addr with
    | none => rfl
    | some off => exact absurd (Platform.windowOffset_eq_some.1 ho) (hout off)

/-- Settles O18: of the machine's operations only reset and a register's own write store to an operand register. -/
theorem operandRegistersChangeOnlyByTheirWrites : Obligations.OperandRegistersChangeOnlyByTheirWrites := fun _ _ h =>
  ⟨step_changes_operand h (r := .width) (by decide), step_changes_operand h (r := .height) (by decide),
    step_changes_operand h (r := .srcAddr) (by decide), step_changes_operand h (r := .srcLen) (by decide),
    step_changes_operand h (r := .dstAddr) (by decide)⟩

/-- Settles O26: every other step leaves the four fields as they are. -/
theorem blockStateChangesOnlyByStartCompletionOrReset : Obligations.BlockStateChangesOnlyByStartCompletionOrReset := by
  intro s t h hne
  rcases step_block h with ⟨hstatus, houtLen, hphase, hlatch⟩ | hcause
  · rcases hne with hne | hne | hne | hne
    · exact absurd hstatus hne
    · exact absurd houtLen hne
    · exact absurd hphase hne
    · exact absurd hlatch hne
  · exact hcause

/-- Settles O32: the two runs go through the same branches, since while IDLE no operation reads `L`. -/
theorem latchIsUnobservableWhileIdle : Obligations.LatchIsUnobservableWhileIdle := by
  intro s l hp
  have hagree := step_agrees hp l
  cases hs : step s with
  | next t =>
    rw [hs] at hagree
    obtain ⟨l', hs', hl'⟩ := hagree
    exact ⟨_, hs', rfl, fun hb => by rw [hl' hb]; rfl⟩
  | fault f => rw [hs] at hagree; exact hagree
  | refused r => rw [hs] at hagree; exact hagree

end

section
/-!
PROOFS of the statements on 20_memory.md: the byte lanes, the canonical form of memory, `MemAdmit`, the overlap fault, the
pixel bytes a file depends on, and what ends a running command.
-/

namespace Sys2Proof.Machine

/-! ## Byte lanes (R57) -/

/-- The lanes of a word made of four bytes are these bytes. -/
@[simp] theorem wordBytes_wordOfLanes (b0 b1 b2 b3 : Byte) : wordBytes (wordOfLanes b0 b1 b2 b3) = [b0, b1, b2, b3] := by
  simp only [wordBytes, wordOfLanes, BitVec.extractLsb'_append_eq_right, BitVec.extractLsb'_append_eq_left,
    BitVec.extractLsb'_append_eq_of_le, Nat.reduceLeDiff, Nat.reduceSub, Nat.sub_self, le_refl]

/-- Lane `k` of a word is its bits 8k+7 to 8k. -/
theorem wordBytes_getElem? (v : Word) {k : Nat} (hk : k < 4) : (wordBytes v)[k]? = some (v.extractLsb' (8 * k) 8) := by
  interval_cases k <;> rfl

/-! ## The canonical form (R50) -/

@[simp] theorem Memory.read_head (k : Nat) (b : Byte) (m : Memory) : Memory.read ((k, b) :: m) k = b := by
  rw [Memory.read, if_pos rfl]

theorem Memory.read_tail {k a : Nat} (b : Byte) (m : Memory) (hne : k ≠ a) :
    Memory.read ((k, b) :: m) a = Memory.read m a := by
  rw [Memory.read, if_neg hne]

/-- A canonical memory reads other than an unlisted byte only from its first listed address on. -/
theorem Memory.head_le_of_listed {lo k a : Nat} {b : Byte} {m : Memory} (h : Memory.wfFrom lo ((k, b) :: m) = true)
    (ha : Memory.read ((k, b) :: m) a ≠ Config.unlistedByte) : k ≤ a := by
  obtain ⟨-, hrest⟩ := Memory.wfFrom_cons.1 h
  by_contra hlt
  exact ha (Memory.read_below (Memory.wfFrom_cons.2 ⟨le_refl k, hrest⟩) (not_le.1 hlt))

/-- Two memories, canonical from one bound on, that read alike are the same list. -/
theorem Memory.eq_of_read_eq {m : Memory} : ∀ {m' : Memory} {lo : Nat}, Memory.wfFrom lo m = true →
    Memory.wfFrom lo m' = true → (∀ a, Memory.read m a = Memory.read m' a) → m = m' := by
  induction m with
  | nil =>
    intro m' lo _ h' heq
    cases m' with
    | nil => rfl
    | cons c' m' =>
      obtain ⟨k', b'⟩ := c'
      obtain ⟨-, -, hb', -⟩ := Memory.wfFrom_cons.1 h'
      exact absurd (heq k').symm (by simpa using hb')
  | cons c m ih =>
    intro m' lo h h' heq
    obtain ⟨k, b⟩ := c
    obtain ⟨-, -, hb, htail⟩ := Memory.wfFrom_cons.1 h
    cases m' with
    | nil => exact absurd (heq k) (by simpa using hb)
    | cons c' m' =>
      obtain ⟨k', b'⟩ := c'
      obtain ⟨-, -, hb', htail'⟩ := Memory.wfFrom_cons.1 h'
      have hle : k ≤ k' := Memory.head_le_of_listed h (by rwa [heq k', Memory.read_head])
      have hge : k' ≤ k := Memory.head_le_of_listed h' (by rwa [← heq k, Memory.read_head])
      obtain rfl : k = k' := le_antisymm hle hge
      obtain rfl : b = b' := by simpa using heq k
      have htails (a : Nat) : Memory.read m a = Memory.read m' a := by
        by_cases ha : k = a
        · rw [Memory.read_below htail (by omega), Memory.read_below htail' (by omega)]
        · simpa only [Memory.read_tail b _ ha] using heq a
      rw [ih htail htail' htails]

/-! ## The checks of a START in the words of the spec -/

theorem exec_startInstr (m : Mode) (ign : BitVec 30) (s : State) : exec (startInstr m ign) s = start m s := by
  cases m <;> rfl

theorem operandsOf_eq_startLatch (m : Mode) (s : State) : operandsOf m s = s.startLatch m := by
  simp only [operandsOf, int32_eq_toInt, State.startLatch, State.startTotal]

theorem validateOk_iff_bufferValid {s : State} : validateOk s.width s.height s.srcLen = true ↔ s.BufferValid := by
  rw [validateOk_iff, int32_eq_toInt, int32_eq_toInt, State.BufferValid]

theorem rangeOk_startLatch_iff {m : Mode} {s : State} :
    rangeOk m (s.startLatch m).w (s.startLatch m).h (s.startLatch m).src (s.startLatch m).len (s.startLatch m).dst = true ↔
      s.RangeValid m := rangeOk_iff

theorem regionsMeet_startLatch_iff {m : Mode} {s : State} :
    regionsMeet (s.startLatch m).src (s.startLatch m).len (s.startLatch m).dst (s.startLatch m).total = true ↔
      ¬ s.RegionsApart m := by
  rw [regionsMeet_iff, State.RegionsApart, not_forall_not]
  rfl

/-- While IDLE a START is the overlap fault exactly where both checks pass and the regions share a byte (R68). -/
theorem startCommand_eq_overlap_iff {m : Mode} {s : State} :
    startCommand m s = .fault .overlap ↔ s.BufferValid ∧ s.RangeValid m ∧ ¬ s.RegionsApart m := by
  rw [← validateOk_iff_bufferValid, ← rangeOk_startLatch_iff, ← regionsMeet_startLatch_iff, ← operandsOf_eq_startLatch]
  cases hv : validateOk s.width s.height s.srcLen with
  | false => simp [startCommand, hv]
  | true =>
    cases hr : rangeOk m (operandsOf m s).w (operandsOf m s).h (operandsOf m s).src (operandsOf m s).len
        (operandsOf m s).dst with
    | false => simp [startCommand, hv, hr]
    | true =>
      cases hd : regionsMeet (operandsOf m s).src (operandsOf m s).len (operandsOf m s).dst (operandsOf m s).total <;>
        simp [startCommand, hv, hr, hd]

/-- A START is the overlap fault only while IDLE: while BUSY it is ignored (R194). -/
theorem start_eq_overlap_iff {m : Mode} {s : State} :
    start m s = .fault .overlap ↔ s.phase = .idle ∧ s.BufferValid ∧ s.RangeValid m ∧ ¬ s.RegionsApart m := by
  rw [← startCommand_eq_overlap_iff]
  cases hp : s.phase with
  | idle => simp [start, hp]
  | busy => simp [start, hp]

/-! ## The pixel bytes a file depends on (R53, R54) -/

/-- The two memories agree in the bytes of the record's image that its mode uses. -/
def SameUsedBytes (m1 m2 : Memory) (l : Latch) : Prop :=
  ∀ x y, x < l.w → y < l.h → pixR m1 l x y = pixR m2 l x y ∧
    (l.mode = .tc → pixG m1 l x y = pixG m2 l x y ∧ pixB m1 l x y = pixB m2 l x y)

theorem SameUsedBytes.bgr_eq {m1 m2 : Memory} {l : Latch} (h : SameUsedBytes m1 m2 l) (hm : l.mode = .tc) {x y : Nat}
    (hx : x < l.w) (hy : y < l.h) : bgr m1 l x y = bgr m2 l x y := by
  obtain ⟨hr, hgb⟩ := h x y hx hy
  obtain ⟨hg, hb⟩ := hgb hm
  rw [bgr, bgr, hr, hg, hb]

theorem SameUsedBytes.tcRow_eq {m1 m2 : Memory} {l : Latch} (h : SameUsedBytes m1 m2 l) (hm : l.mode = .tc) {y : Nat}
    (hy : y < l.h) : tcRow m1 l y = tcRow m2 l y := by
  rw [tcRow, tcRow, concat_congr fun x hx => h.bgr_eq hm hx hy]

/-- Past the end of the row the packed bit is 0, whatever memory holds (R153). -/
theorem SameUsedBytes.packedBit_eq {m1 m2 : Memory} {l : Latch} (h : SameUsedBytes m1 m2 l) (x : Nat) {y : Nat}
    (hy : y < l.h) : packedBit m1 l x y = packedBit m2 l x y := by
  unfold packedBit
  split
  case isTrue hx => rw [pixBit, pixBit, (h x y hx hy).1]
  case isFalse => rfl

theorem SameUsedBytes.monoRow_eq {m1 m2 : Memory} {l : Latch} (h : SameUsedBytes m1 m2 l) {y : Nat} (hy : y < l.h) :
    monoRow m1 l y = monoRow m2 l y := by
  have hpack (k : Nat) : packByte m1 l k y = packByte m2 l k y := by
    simp only [packByte, h.packedBit_eq _ hy]
  simp only [monoRow, hpack]

theorem SameUsedBytes.encodeFile_eq {m1 m2 : Memory} {l : Latch} (h : SameUsedBytes m1 m2 l) :
    encodeFile m1 l = encodeFile m2 l := by
  unfold encodeFile
  split
  case h_1 hm =>
    have hdata : tcData m1 l = tcData m2 l := concat_congr fun r hr => h.tcRow_eq hm (by omega)
    rw [encTc, encTc, hdata]
  case h_2 =>
    have hdata : monoData m1 l = monoData m2 l := concat_congr fun r hr => h.monoRow_eq (by omega)
    rw [encMono, encMono, hdata]

/-! ## The engine without admitted memory (R52) -/

theorem State.engineTurn_stuck {s : State} (h : ¬ s.latch.Admitted s.plat) : s.engineTurn = s := by
  rcases engineTurn_cases s with ⟨hen, -, -⟩ | ⟨-, e⟩
  · exact absurd (State.engineEnabled_iff.1 hen).2 h
  · exact e

end Sys2Proof.Machine

namespace Sys2Proof

/-! ## `MemAdmit` and the register window (R69) -/

/-- The 64 addresses from `REG_BASE` lie in the window. -/
theorem Platform.inWindow_regBase_add (p : Platform) (off : BitVec 6) :
    p.inWindow (p.regBase + off.setWidth 32) = true := by
  have ho : p.windowOffset (p.regBase + off.setWidth 32) = some off := Platform.windowOffset_eq_some.2 rfl
  unfold Platform.windowOffset at ho
  split at ho
  · assumption
  · cases ho

theorem Platform.admits_outside {p : Platform} {a : Nat} (h : 2 ^ 32 ≤ a) (d : Dir) : p.admits a d = false := by
  rw [← Bool.not_eq_true]
  exact fun hadm => absurd (Platform.admits_bound hadm).1 (not_lt.2 h)

theorem Platform.admits_window (p : Platform) (off : BitVec 6) (d : Dir) :
    p.admits (p.regBase + off.setWidth 32).toNat d = false := by
  rw [← Bool.not_eq_true]
  intro hadm
  have hout := (Platform.admits_bound hadm).2
  rw [BitVec.ofNat_toNat, BitVec.setWidth_eq, Platform.inWindow_regBase_add] at hout
  cases hout

end Sys2Proof

open Sys2Proof Sys2Proof.Machine

/-- Settles O23: the two checks are the spec's conditions on the registers, and the fault is the branch after both. -/
theorem overlapFaultsExactly : Obligations.OverlapFaultsExactly := by
  intro s m ign
  rw [exec_startInstr]
  exact start_eq_overlap_iff

/-- Settles O29: of the steps that change the block's state, a START needs the phase IDLE and reset is excluded, which
leaves the engine's completion. -/
theorem onlyCompletionOrResetEndsACommand : Obligations.OnlyCompletionOrResetEndsACommand := by
  intro s t h hbusy hreset
  rcases step_block h with hsame | ⟨hidle, -⟩ | ⟨-, hadm, hq, hstatus, hphase, -⟩ | ⟨hq, -⟩
  · exact .inl ⟨hsame.phase.trans hbusy, hsame.latch, hsame.status, hsame.outLen⟩
  · rw [hbusy] at hidle
    cases hidle
  · exact .inr ⟨hadm, hq, hphase, hstatus⟩
  · exact absurd hq hreset

/-- Settles O41: a file is built from header fields of the record and from the pixel bytes its mode uses. -/
theorem unusedPixelBytesHaveNoEffect : Obligations.UnusedPixelBytesHaveNoEffect := by
  intro m1 m2 l h
  exact SameUsedBytes.encodeFile_eq h

/-- Settles O51, by induction on the list: the first listed addresses must be the same, and so the bytes at them. -/
theorem canonicalMemoriesWithEqualReadsAreEqual : Obligations.CanonicalMemoriesWithEqualReadsAreEqual :=
  fun _ _ h1 h2 heq => Memory.eq_of_read_eq h1 h2 heq

/-- Settles O10, lane by lane. -/
theorem byteLanesAreLittleEndian : Obligations.ByteLanesAreLittleEndian := by
  intro v b0 b1 b2 b3
  exact ⟨fun _ hk => wordBytes_getElem? v hk, wordBytes_wordOfLanes b0 b1 b2 b3⟩

/-- Settles O28: without admitted memory the engine's step is not enabled. -/
theorem engineIsStuckWithoutAdmittedMemory : Obligations.EngineIsStuckWithoutAdmittedMemory := by
  intro s rest _ hstuck
  have hturn : State.engineTurn { s with inbox := rest } = { s with inbox := rest } := State.engineTurn_stuck hstuck
  rw [step_of_inbox_cons rfl, runEvent, hturn]

/-- Settles O33: an admitted address is below 2^32 and outside the window, and a command needs its whole regions
admitted. -/
theorem memAdmitExcludesTheWindow : Obligations.MemAdmitExcludesTheWindow := by
  intro p d l
  refine ⟨fun a ha => Platform.admits_outside ha d, fun off => p.admits_window off d, fun off h1 h2 hadm => ?_,
    fun off h1 h2 hadm => ?_⟩
  · have hwrite := hadm.2 _ h1 h2
    rw [p.admits_window off .write] at hwrite
    cases hwrite
  · have hread := hadm.1 _ h1 h2
    rw [p.admits_window off .read] at hread
    cases hread

end

section
/-!
PROOFS of the statements on 30_encoding.md: decoding and encoding, the opcode table, the command word, the step of an
access, SETUP, the host's memory actions and the STATUS word.
-/

namespace Sys2Proof

/-! ## Offsets and registers (R23) -/

@[simp] theorem regAt_offset (r : Reg) : regAt r.offset = r := by
  cases r with
  | rsvd k => revert k; decide
  | _ => rfl

/-- A register's offset is a multiple of 4. -/
@[simp] theorem Reg.offset_aligned (r : Reg) : r.offset.extractLsb' 0 2 = 0#2 := by
  cases r with
  | rsvd k => revert k; decide
  | _ => rfl

theorem Reg.offset_injective : Function.Injective Reg.offset :=
  Function.LeftInverse.injective regAt_offset

/-- The word-aligned offsets are those of the registers. -/
theorem offset_regAt {off : BitVec 6} (h : off.extractLsb' 0 2 = 0#2) : (regAt off).offset = off := by
  revert h; revert off; decide

theorem aligned_iff {off : BitVec 6} : off.extractLsb' 0 2 = 0#2 ↔ off.toNat % 4 = 0 := by
  rw [← BitVec.toNat_inj, BitVec.extractLsb'_toNat, Nat.shiftRight_zero]
  rfl

/-- A reserved slot's offset is one of the slots' offsets (R32). -/
theorem isReservedOffset_rsvd (k : BitVec 3) : isReservedOffset (Reg.rsvd k).offset = true := by
  revert k; decide

/-! ## The decoder's answer, access by access (R70 to R72) -/

/-- The value of an access word (R70). -/
theorem accessWord_toNat (w : Bool) (o : BitVec 6) (d : Word) :
    (accessWord w o d).toNat = (if w then 2 ^ 38 else 0) + o.toNat * 2 ^ 32 + d.toNat := by
  rw [accessWord, BitVec.toNat_append, BitVec.toNat_append, ← Nat.shiftLeft_add_eq_or_of_lt d.isLt,
    ← Nat.shiftLeft_add_eq_or_of_lt o.isLt, Nat.shiftLeft_eq, Nat.shiftLeft_eq]
  cases w with
  | false => simp
  | true => simp only [BitVec.toNat_ofBool, Bool.toNat_true, if_true]; omega

/-- An access at a register's offset decodes, whatever its direction and its DATA. -/
theorem decodeWord_accessWord (w : Bool) (r : Reg) (d : Word) :
    decodeWord (accessWord w r.offset d) = .ok (decodeAccess w r.offset d) := by
  simp [decodeWord]

theorem decodeWord_misaligned {w : Bool} {off : BitVec 6} (h : off.toNat % 4 ≠ 0) (d : Word) :
    decodeWord (accessWord w off d) = .error .offsetNotAligned := by
  rw [decodeWord, accessOff_accessWord, if_neg (mt aligned_iff.1 h)]

/-- An access word that decodes is an access at a register's offset, and decodes to that access. -/
theorem decodeWord_ok {a : AccessWord} {i : Instr} (h : decodeWord a = .ok i) :
    ∃ r : Reg, a = accessWord (accessDir a) r.offset (accessData a) ∧
      i = decodeAccess (accessDir a) r.offset (accessData a) := by
  unfold decodeWord at h
  split at h
  case isTrue haligned =>
    cases h
    exact ⟨regAt (accessOff a), by rw [offset_regAt haligned, accessWord_fields], by rw [offset_regAt haligned]⟩
  case isFalse => cases h

/-- What the byte decoder answers, it answers for the access word of its five bytes (assumption 11). -/
theorem decode_ok {bs : List Byte} {i : Instr} (h : decode bs = .ok i) :
    bs.length = 5 ∧ bytesToNat bs < 2 ^ 39 ∧ decodeWord (BitVec.ofNat 39 (bytesToNat bs)) = .ok i := by
  unfold decode at h
  split at h
  case isTrue hlen =>
    split at h
    case isTrue hlt => exact ⟨hlen, hlt, h⟩
    case isFalse => cases h
  case isFalse => cases h

/-! ## Decoding and encoding are inverse -/

/-- The command of a command word given by its fields: START and MODE choose it, IGN is kept (R71, R72). -/
theorem decodeCommand_commandWord (ign : BitVec 30) (mode start : Bool) :
    decodeCommand (commandWord ign mode start) =
      match start, mode with
      | false, mode => .nop mode ign
      | true, false => .encodeTc ign
      | true, true => .encodeMono ign := by
  cases start <;> cases mode <;>
    simp only [decodeCommand, commandStart_commandWord, commandMode_commandWord, commandIgn_commandWord]

/-- A command word is the one its command is encoded with (R71, R72). -/
theorem encode_decodeCommand (c : Word) : encode (decodeCommand c) = accessWord true Reg.cmd.offset c := by
  rw [← commandWord_fields c, decodeCommand_commandWord]
  cases commandStart c <;> cases commandMode c <;> rfl

theorem decodeCommand_wf (c : Word) : (decodeCommand c).wf = true := by
  unfold decodeCommand
  split <;> rfl

theorem decodeAccess_write_cmd (c : Word) : decodeAccess true Reg.cmd.offset c = decodeCommand c := by
  rw [decodeAccess, decodeWrite, regAt_offset]

/-- An access at a register's offset is the encoding of the instruction it decodes to. -/
theorem encode_decodeAccess (w : Bool) (r : Reg) (d : Word) :
    encode (decodeAccess w r.offset d) = accessWord w r.offset d := by
  cases w with
  | false => rw [decodeAccess, decodeRead, regAt_offset]; cases r <;> rfl
  | true =>
    rw [decodeAccess, decodeWrite, regAt_offset]
    cases r with
    | cmd => exact encode_decodeCommand d
    | _ => rfl

theorem decodeAccess_wf (w : Bool) (r : Reg) (d : Word) : (decodeAccess w r.offset d).wf = true := by
  cases w with
  | false =>
    rw [decodeAccess, decodeRead, regAt_offset]
    cases r with
    | rsvd k => exact isReservedOffset_rsvd k
    | _ => rfl
  | true =>
    rw [decodeAccess, decodeWrite, regAt_offset]
    cases r with
    | cmd => exact decodeCommand_wf d
    | rsvd k => exact isReservedOffset_rsvd k
    | _ => rfl

/-- A reserved offset is the offset of a reserved slot. -/
theorem isReservedOffset_iff {off : BitVec 6} : isReservedOffset off = true ↔ ∃ k, (Reg.rsvd k).offset = off := by
  constructor
  · intro h
    exact ⟨off.extractLsb' 2 3, by rw [← regAt_reserved h, offset_regAt (reserved_aligned h)]⟩
  · rintro ⟨k, rfl⟩
    exact isReservedOffset_rsvd k

/-- Every well-formed instruction is what some access at a register's offset decodes to. -/
theorem Instr.exists_decodeAccess {i : Instr} (h : i.wf = true) :
    ∃ (w : Bool) (r : Reg) (d : Word), decodeAccess w r.offset d = i := by
  cases i with
  | nop mode ign => exact ⟨true, .cmd, _, decodeCommand_commandWord ign mode false⟩
  | encodeTc ign => exact ⟨true, .cmd, _, decodeCommand_commandWord ign false true⟩
  | encodeMono ign => exact ⟨true, .cmd, _, decodeCommand_commandWord ign true true⟩
  | wrStatus v => exact ⟨true, .status, v, rfl⟩
  | wrWidth v => exact ⟨true, .width, v, rfl⟩
  | wrHeight v => exact ⟨true, .height, v, rfl⟩
  | wrSrcAddr v => exact ⟨true, .srcAddr, v, rfl⟩
  | wrSrcLen v => exact ⟨true, .srcLen, v, rfl⟩
  | wrDstAddr v => exact ⟨true, .dstAddr, v, rfl⟩
  | wrOutLen v => exact ⟨true, .outLen, v, rfl⟩
  | wrRsvd off v =>
    obtain ⟨k, rfl⟩ := isReservedOffset_iff.1 h
    exact ⟨true, .rsvd k, v, by rw [decodeAccess, decodeWrite, regAt_offset]⟩
  | rdCmd d => exact ⟨false, .cmd, d, rfl⟩
  | rdStatus d => exact ⟨false, .status, d, rfl⟩
  | rdWidth d => exact ⟨false, .width, d, rfl⟩
  | rdHeight d => exact ⟨false, .height, d, rfl⟩
  | rdSrcAddr d => exact ⟨false, .srcAddr, d, rfl⟩
  | rdSrcLen d => exact ⟨false, .srcLen, d, rfl⟩
  | rdDstAddr d => exact ⟨false, .dstAddr, d, rfl⟩
  | rdOutLen d => exact ⟨false, .outLen, d, rfl⟩
  | rdRsvd off d =>
    obtain ⟨k, rfl⟩ := isReservedOffset_iff.1 h
    exact ⟨false, .rsvd k, d, by rw [decodeAccess, decodeRead, regAt_offset]⟩

theorem decodeWord_encode {i : Instr} (h : i.wf = true) : decodeWord (encode i) = .ok i := by
  obtain ⟨w, r, d, rfl⟩ := Instr.exists_decodeAccess h
  rw [encode_decodeAccess, decodeWord_accessWord]

theorem wf_and_encode_of_decodeWord {a : AccessWord} {i : Instr} (h : decodeWord a = .ok i) :
    i.wf = true ∧ encode i = a := by
  obtain ⟨r, ha, rfl⟩ := decodeWord_ok h
  exact ⟨decodeAccess_wf _ r _, (encode_decodeAccess _ r _).trans ha.symm⟩

/-- The five bytes are those of the access word they stand for. -/
theorem wf_and_encodeBytes_of_decode {bs : List Byte} {i : Instr} (h : decode bs = .ok i) :
    i.wf = true ∧ encodeBytes i = bs := by
  obtain ⟨hlen, hlt, hword⟩ := decode_ok h
  obtain ⟨hwf, henc⟩ := wf_and_encode_of_decodeWord hword
  refine ⟨hwf, ?_⟩
  rw [encodeBytes, henc, BitVec.toNat_ofNat, Nat.mod_eq_of_lt hlt, ← hlen, natToBytes_bytesToNat]

/-! ## The opcode table (R70) -/

/-- No access word matches two rows: where the masks overlap, the patterns differ. -/
theorem opcodeTable_disjoint :
    opcodeTable.Pairwise fun r r' => r.pattern &&& r'.mask ≠ r'.pattern &&& r.mask := by decide

/-- Every row examines OFF[1:0] and asks for 00. -/
theorem opcodeTable_aligned : ∀ r ∈ opcodeTable,
    r.mask &&& accessWord false 0x03 0 = accessWord false 0x03 0 ∧ r.pattern &&& accessWord false 0x03 0 = 0 := by
  decide

theorem OpcodeRow.applies_iff {r : OpcodeRow} {a : AccessWord} : r.applies a = true ↔ a &&& r.mask = r.pattern := by
  rw [OpcodeRow.applies, decide_eq_true_eq]

/-- Two rows that apply to one word agree where both masks examine it. -/
theorem OpcodeRow.pattern_and_mask_eq {r r' : OpcodeRow} {a : AccessWord} (h : r.applies a = true)
    (h' : r'.applies a = true) : r.pattern &&& r'.mask = r'.pattern &&& r.mask := by
  rw [← applies_iff.1 h, ← applies_iff.1 h', BitVec.and_assoc, BitVec.and_assoc, BitVec.and_comm r.mask]

/-- Where no two members of a list satisfy `p` together, a member that satisfies it is the only one. -/
theorem filter_eq_singleton {α : Type} {l : List α} {p : α → Bool} {x : α}
    (hl : l.Pairwise fun y z => ¬ (p y = true ∧ p z = true)) (hx : x ∈ l) (hpx : p x = true) : l.filter p = [x] := by
  have hmem : x ∈ l.filter p := List.mem_filter.2 ⟨hx, hpx⟩
  have hp (y : α) (hy : y ∈ l.filter p) : p y = true := (List.mem_filter.1 hy).2
  have hpair := hl.filter p
  cases hf : l.filter p with
  | nil => rw [hf] at hmem; cases hmem
  | cons y ys =>
    rw [hf] at hmem hp hpair
    cases ys with
    | nil => rw [List.mem_singleton.1 hmem]
    | cons z zs => exact absurd ⟨hp y (by simp), hp z (by simp)⟩ (List.rel_of_pairwise_cons hpair (by simp))

/-- A row of the table that applies to a word is the only one that does. -/
theorem opcodeTable_filter_eq {r : OpcodeRow} {a : AccessWord} (hr : r ∈ opcodeTable) (ha : r.applies a = true) :
    opcodeTable.filter (fun r => r.applies a) = [r] :=
  filter_eq_singleton
    (opcodeTable_disjoint.imp fun hne happ => hne (OpcodeRow.pattern_and_mask_eq happ.1 happ.2)) hr ha

/-- A row of the table applies to a word-aligned access only. -/
theorem aligned_of_applies {r : OpcodeRow} (hr : r ∈ opcodeTable) {w : Bool} {off : BitVec 6} {d : Word}
    (ha : r.applies (accessWord w off d) = true) : off.toNat % 4 = 0 := by
  obtain ⟨hmask, hpat⟩ := opcodeTable_aligned r hr
  rw [← OpcodeRow.applies_iff.1 ha, BitVec.and_assoc, hmask, Laws.TableRow.accessWord_and] at hpat
  have hoff : off &&& 0x03 = 0 := (accessOff_accessWord _ _ _).symm.trans (congrArg accessOff hpat)
  calc off.toNat % 4 = (off &&& 0x03).toNat := (Nat.and_two_pow_sub_one_eq_mod off.toNat 2).symm
    _ = 0 := by rw [hoff]; rfl

theorem opcodeTable_filter_misaligned {w : Bool} {off : BitVec 6} (h : off.toNat % 4 ≠ 0) (d : Word) :
    opcodeTable.filter (fun r => r.applies (accessWord w off d)) = [] :=
  List.filter_eq_nil_iff.2 fun _ hr ha => h (aligned_of_applies hr ha)

/-- Every instruction matches the row of its mnemonic. -/
theorem tableRow_statement (i : Instr) : Laws.TableRow.Statement i :=
  match i with
  | .nop mode ign => Laws.TableRow.nop mode ign
  | .encodeTc ign => Laws.TableRow.encodeTc ign
  | .encodeMono ign => Laws.TableRow.encodeMono ign
  | .wrStatus v => Laws.TableRow.wrStatus v
  | .wrWidth v => Laws.TableRow.wrWidth v
  | .wrHeight v => Laws.TableRow.wrHeight v
  | .wrSrcAddr v => Laws.TableRow.wrSrcAddr v
  | .wrSrcLen v => Laws.TableRow.wrSrcLen v
  | .wrDstAddr v => Laws.TableRow.wrDstAddr v
  | .wrOutLen v => Laws.TableRow.wrOutLen v
  | .wrRsvd off v => Laws.TableRow.wrRsvd off v
  | .rdCmd d => Laws.TableRow.rdCmd d
  | .rdStatus d => Laws.TableRow.rdStatus d
  | .rdWidth d => Laws.TableRow.rdWidth d
  | .rdHeight d => Laws.TableRow.rdHeight d
  | .rdSrcAddr d => Laws.TableRow.rdSrcAddr d
  | .rdSrcLen d => Laws.TableRow.rdSrcLen d
  | .rdDstAddr d => Laws.TableRow.rdDstAddr d
  | .rdOutLen d => Laws.TableRow.rdOutLen d
  | .rdRsvd off d => Laws.TableRow.rdRsvd off d

/-- The access word of an access at a register's offset matches exactly the row of the instruction it decodes to. -/
theorem opcodeTable_filter_access (w : Bool) (r : Reg) (d : Word) :
    (∃ row, opcodeTable.filter (fun row => row.applies (accessWord w r.offset d)) = [row] ∧
      row.mnemonic = (decodeAccess w r.offset d).mnemonic) ∧ (decodeAccess w r.offset d).isWrite = w := by
  obtain ⟨⟨row, hrow, hname, happ⟩, hdir⟩ := tableRow_statement _ (decodeAccess_wf w r d)
  rw [encode_decodeAccess] at happ hdir
  exact ⟨⟨row, opcodeTable_filter_eq hrow happ, hname⟩, by rw [← hdir, accessDir_accessWord]⟩

end Sys2Proof

namespace Sys2Proof.Machine

/-! ## Fetching and running an access (R70, R262) -/

theorem fetchAccess_of_decodeWord {a : BusAccess} {i : Instr} (hwidth : a.width = 32)
    (h : decodeWord (accessWord a.write a.off a.data) = .ok i) : fetchAccess a = .ok i := by
  rw [fetchAccess, if_pos hwidth, h]

theorem fetchAccess_offset (w : Bool) (r : Reg) (d : Word) :
    fetchAccess ⟨w, r.offset, 32, d⟩ = .ok (decodeAccess w r.offset d) :=
  fetchAccess_of_decodeWord rfl (decodeWord_accessWord w r d)

theorem fetchAccess_of_width_ne {a : BusAccess} (h : a.width ≠ 32) : fetchAccess a = .error .accessWidth := by
  rw [fetchAccess, if_neg h]

theorem fetchAccess_misaligned {w : Bool} {off : BitVec 6} (h : off.toNat % 4 ≠ 0) (d : Word) :
    fetchAccess ⟨w, off, 32, d⟩ = .error .accessAlignment := by
  rw [fetchAccess, if_pos rfl, decodeWord_misaligned h]

theorem runAccess_of_fetchAccess {a : BusAccess} {i : Instr} (h : fetchAccess a = .ok i) (s : State) :
    runAccess a s = exec i { s with response := .none } := by
  rw [runAccess, h]

/-- A step whose next event is an access runs the instruction the access fetches. -/
theorem step_of_access {s : State} {a : BusAccess} {rest : List Event} {i : Instr} (hq : s.inbox = .access a :: rest)
    (hf : fetchAccess a = .ok i) : step s = exec i { s with inbox := rest, response := .none } := by
  rw [step_of_inbox_cons hq, runEvent, runAccess_of_fetchAccess hf]

/-- A command acts by its START and MODE bits alone (R75). -/
theorem exec_decodeCommand_congr {c c' : Word} (hstart : commandStart c = commandStart c')
    (hmode : commandMode c = commandMode c') (s : State) : exec (decodeCommand c) s = exec (decodeCommand c') s := by
  rw [decodeCommand, decodeCommand, hstart, hmode]
  cases commandStart c' <;> cases commandMode c' <;> rfl

/-- A write to CMD runs the command of the word written (R72). -/
theorem runAccess_cmd (c : Word) (s : State) :
    runAccess ⟨true, Reg.cmd.offset, 32, c⟩ s = exec (decodeCommand c) { s with response := .none } := by
  rw [runAccess_of_fetchAccess (fetchAccess_offset true .cmd c), decodeAccess_write_cmd]

/-- A write to a register other than CMD stores what the register takes of the value (R181 to R187, R197). -/
theorem exec_decodeAccess_write {r : Reg} (hr : r ≠ .cmd) (v : Word) (s : State) :
    exec (decodeAccess true r.offset v) s = .next (s.writeReg r v) := by
  rw [decodeAccess, decodeWrite, regAt_offset]
  cases r with
  | cmd => exact absurd rfl hr
  | _ => rfl

/-! ## The access of a table word -/

/-- The fields of `tableAccess` are those of the access word with the same number. -/
theorem accessWord_of_number (v : Nat) :
    accessWord (decide (v / 2 ^ 38 % 2 = 1)) (BitVec.ofNat 6 (v / 2 ^ 32)) (BitVec.ofNat 32 v) = BitVec.ofNat 39 v := by
  apply BitVec.eq_of_toNat_eq
  simp only [accessWord_toNat, BitVec.toNat_ofNat, decide_eq_true_eq]
  split <;> omega

/-- The access of a table word fetches what the decoder reads from the table word. -/
theorem fetchAccess_tableAccess {nbits w : Nat} {i : Instr} (h : decodeTableWord nbits w = some i) :
    fetchAccess (tableAccess nbits w) = .ok i := by
  have hdec : decode (natToBytes 5 (w % 2 ^ nbits)) = .ok i := by
    unfold decodeTableWord at h
    cases hd : decode (natToBytes 5 (w % 2 ^ nbits)) with
    | ok j => rw [hd] at h; cases h; rfl
    | error e => rw [hd] at h; cases h
  obtain ⟨-, hlt, hword⟩ := decode_ok hdec
  rw [bytesToNat_natToBytes] at hlt hword
  have hmod : BitVec.ofNat 39 (w % 2 ^ nbits % 2 ^ 40) = BitVec.ofNat 39 (w % 2 ^ nbits) :=
    BitVec.eq_of_toNat_eq (by simp only [BitVec.toNat_ofNat]; omega)
  refine fetchAccess_of_decodeWord (if_pos hlt) ?_
  rw [tableAccess, accessWord_of_number, ← hmod]
  exact hword

/-! ## SETUP (R83) -/

/-- The write of a value to a register is an injective function of both. -/
theorem wrEvent_injective : Function.Injective fun x : Reg × Word => wrEvent x.1 x.2 := by
  rintro ⟨r, v⟩ ⟨r', v'⟩ h
  simp only [wrEvent, Event.access.injEq, BusAccess.mk.injEq, true_and] at h
  obtain ⟨hoff, rfl⟩ := h
  rw [Reg.offset_injective hoff]

/-- A register write neither looks at the host's fields nor changes them. -/
theorem State.writeReg_with_host (s : State) (r : Reg) (v : Word) (q : List Event) (p : Response) :
    State.writeReg { s with inbox := q, response := p } r v = { s.writeReg r v with inbox := q, response := p } := by
  cases r <;> rfl

/-- What a register write does to each of the five read-write registers. -/
theorem State.writeReg_eq (s : State) (r : Reg) (v : Word) :
    s.writeReg r v = { s with
      width := if r = .width then v else s.width
      height := if r = .height then v else s.height
      srcAddr := if r = .srcAddr then v else s.srcAddr
      srcLen := if r = .srcLen then v else s.srcLen
      dstAddr := if r = .dstAddr then v else s.dstAddr } := by
  cases r <;> rfl

/-- The state after the host's write of a value to a register. -/
def State.store (s : State) (x : Reg × Word) : State := { s.writeReg x.1 x.2 with response := .none }

/-- Writes to two registers commute: each field is one register's own. -/
theorem State.store_comm (s : State) {x y : Reg × Word} (hne : x.1 ≠ y.1) :
    (s.store x).store y = (s.store y).store x := by
  have hexcl (r : Reg) : y.1 = r → ¬ x.1 = r := fun hy hx => hne (hx.trans hy.symm)
  simp only [State.store, State.writeReg_eq]
  congr 1
  · exact ite_ite_comm _ _ _ _ (hexcl .width)
  · exact ite_ite_comm _ _ _ _ (hexcl .height)
  · exact ite_ite_comm _ _ _ _ (hexcl .srcAddr)
  · exact ite_ite_comm _ _ _ _ (hexcl .srcLen)
  · exact ite_ite_comm _ _ _ _ (hexcl .dstAddr)

/-- A step that writes a register other than CMD stores the value. -/
theorem step_wrEvent {x : Reg × Word} (hx : x.1 ≠ .cmd) (s : State) (q : List Event) :
    step { s with inbox := wrEvent x.1 x.2 :: q } = .next { s.store x with inbox := q } := by
  have hstep : step { s with inbox := wrEvent x.1 x.2 :: q } =
      exec (decodeAccess true x.1.offset x.2) { s with inbox := q, response := .none } :=
    step_of_access rfl (fetchAccess_offset true x.1 x.2)
  rw [hstep, exec_decodeAccess_write hx, State.writeReg_with_host]
  rfl

/-- A list of register writes stores them one after the other. -/
theorem runSteps_wrEvents (rest : List Event) {l : List (Reg × Word)} (hl : ∀ x ∈ l, x.1 ≠ .cmd) (s : State) :
    runSteps l.length { s with inbox := l.map (fun x => wrEvent x.1 x.2) ++ rest } =
      .next { l.foldl State.store s with inbox := rest } := by
  induction l generalizing s with
  | nil => rfl
  | cons x l ih =>
    obtain ⟨hx, hl⟩ := List.forall_mem_cons.1 hl
    rw [List.length_cons, List.map_cons, List.cons_append, runSteps_succ_of_next (step_wrEvent hx s _)]
    exact ih hl (s.store x)

/-- The order in which writes to different registers are stored does not matter. -/
theorem foldl_store_perm {l l' : List (Reg × Word)} (hperm : l.Perm l') (hnodup : (l'.map Prod.fst).Nodup) (s : State) :
    l.foldl State.store s = l'.foldl State.store s := by
  refine (hperm.symm.foldl_eq' (fun x hx y hy z => ?_) s).symm
  by_cases hxy : x = y
  · rw [hxy]
  · exact z.store_comm fun h => hxy (List.inj_on_of_nodup_map hnodup hx hy h)

/-- A list with the events of writes, in any order, is the list of some order of the writes. -/
theorem exists_perm_of_wrEvents {p : List Event} {l : List (Reg × Word)}
    (h : p.Perm (l.map fun x => wrEvent x.1 x.2)) :
    ∃ l' : List (Reg × Word), l'.Perm l ∧ p = l'.map fun x => wrEvent x.1 x.2 := by
  have hrange : p ∈ Set.range (List.map fun x : Reg × Word => wrEvent x.1 x.2) := by
    rw [Set.range_list_map]
    intro e he
    obtain ⟨x, -, rfl⟩ := List.mem_map.1 (h.subset he)
    exact ⟨x, rfl⟩
  obtain ⟨l', rfl⟩ := hrange
  exact ⟨l', (List.map_perm_map_iff wrEvent_injective).1 h, rfl⟩

/-- The registers of `SETUP` with their values (R83). -/
def setupStores (w h src len dst : Word) : List (Reg × Word) :=
  [(.width, w), (.height, h), (.srcAddr, src), (.srcLen, len), (.dstAddr, dst)]

theorem setup_events (w h src len dst : Word) :
    Stmt.events (.setup w h src len dst) = (setupStores w h src len dst).map fun x => wrEvent x.1 x.2 := rfl

/-! ## Memory actions of the host (R82) -/

/-- A host memory write outside the window and outside every open region stores its bytes. -/
theorem step_memWrite {s : State} {a : Nat} {bs : List Byte} {rest : List Event} (hq : s.inbox = .memWrite a bs :: rest)
    (hfit : a + bs.length ≤ Config.addrSpace) (hwin : s.plat.windowMeets a bs.length = false)
    (hsrc : s.meetsOpenSource a bs.length = false) (hdst : s.meetsOpenDest a bs.length = false) :
    step s = .next { s with mem := Memory.writeBytes s.mem a bs, inbox := rest, response := .none } := by
  have hsrc : State.meetsOpenSource { s with inbox := rest } a bs.length = false := hsrc
  have hdst : State.meetsOpenDest { s with inbox := rest } a bs.length = false := hdst
  simp [step_of_inbox_cons hq, runEvent, hostMemWrite, inAddrSpace, hfit, hwin, hsrc, hdst]

/-- A host memory read outside the window and outside every open destination region returns the bytes. -/
theorem step_memRead {s : State} {a n : Nat} {rest : List Event} (hq : s.inbox = .memRead a n :: rest)
    (hfit : a + n ≤ Config.addrSpace) (hwin : s.plat.windowMeets a n = false) (hdst : s.meetsOpenDest a n = false) :
    step s = .next { s with inbox := rest, response := .bytes (Memory.readBytes s.mem a n) } := by
  have hdst : State.meetsOpenDest { s with inbox := rest } a n = false := hdst
  simp [step_of_inbox_cons hq, runEvent, hostMemRead, inAddrSpace, hfit, hwin, hdst]

end Sys2Proof.Machine

namespace Sys2Proof

theorem Platform.windowMeets_eq_false_iff {p : Platform} {a n : Nat} :
    p.windowMeets a n = false ↔ ∀ i, i < n → p.inWindow (BitVec.ofNat 32 (a + i)) = false := by
  simp [Platform.windowMeets]

end Sys2Proof

namespace Sys2Proof.Machine

/-! ## The STATUS word (R74) -/

theorem statusWord_toNat (busy done err : Bool) (code : BitVec 4) :
    (statusWord busy done err code).toNat = code.toNat * 16 + err.toNat * 4 + done.toNat * 2 + busy.toNat := by
  revert busy done err code; decide

theorem statusWord_fields (busy done err : Bool) (code : BitVec 4) :
    statusBusy (statusWord busy done err code) = busy ∧ statusDone (statusWord busy done err code) = done ∧
      statusErr (statusWord busy done err code) = err ∧ statusErrcode (statusWord busy done err code) = code := by
  revert busy done err code; decide

/-- A legal STATUS is the word of its fields, with the reserved bits 0 and ERRCODE one of the two errors' codes or 0. -/
theorem legalStatus_layout {v : Word} (h : legalStatus v = true) :
    v.getLsbD 3 = false ∧ v.toNat < 256 ∧
      v = statusWord (statusBusy v) (statusDone v) (statusErr v) (statusErrcode v) ∧
      (statusErrcode v = 0 ∨ statusErrcode v = ErrorCond.invalidBuffer.code ∨
        statusErrcode v = ErrorCond.range.code) := by
  rcases legalStatus_iff.1 h with rfl | rfl | rfl | rfl | rfl <;> decide

end Sys2Proof.Machine

open Sys2Proof Sys2Proof.Machine

/-- Settles O4: a well-formed instruction is what an access at a register's offset decodes to, and its encoding is that
access. -/
theorem decodeOfEncodeIsIdentity : Obligations.DecodeOfEncodeIsIdentity := by
  intro i h
  have hword := decodeWord_encode h
  exact ⟨hword, (decode_frame (encode i)).trans hword⟩

/-- Settles O5: what decodes is an access at a register's offset, which its instruction is encoded as. -/
theorem encodeOfDecodeIsIdentity : Obligations.EncodeOfDecodeIsIdentity :=
  ⟨fun _ _ h => wf_and_encode_of_decodeWord h, fun _ _ h => wf_and_encodeBytes_of_decode h⟩

/-- Settles O1: the instruction's own row applies, no two rows apply to one word, and every row asks for
OFF[1:0] = 00. -/
theorem alignedAccessMatchesExactlyOneRow : Obligations.AlignedAccessMatchesExactlyOneRow := by
  intro write off data
  refine ⟨accessWord_toNat write off data, fun haligned => ?_,
    fun hmis => ⟨opcodeTable_filter_misaligned hmis data, fetchAccess_misaligned hmis data⟩, fun width hwidth => ?_⟩
  · rw [← offset_regAt (aligned_iff.2 haligned)]
    obtain ⟨⟨row, hrow, hname⟩, hwrite⟩ := opcodeTable_filter_access write (regAt off) data
    exact ⟨row, _, hrow, decodeWord_accessWord write _ data, hname.symm, hwrite⟩
  · have hrefused : fetchAccess ⟨write, off, width, data⟩ = .error .accessWidth := fetchAccess_of_width_ne hwidth
    exact ⟨fun _ => hrefused, _, hrefused, .inl rfl⟩

/-- Settles O3: the two words have the same START and MODE. -/
theorem ignoredCommandBitsHaveNoEffect : Obligations.IgnoredCommandBitsHaveNoEffect := by
  intro c s
  have hstart : commandStart c = commandStart (c &&& 0x00000003) := by simp [commandStart]
  have hmode : commandMode c = commandMode (c &&& 0x00000003) := by simp [commandMode]
  calc runAccess ⟨true, Reg.cmd.offset, 32, c⟩ s
      = exec (decodeCommand c) { s with response := .none } := runAccess_cmd c s
    _ = exec (decodeCommand (c &&& 0x00000003)) { s with response := .none } := exec_decodeCommand_congr hstart hmode _
    _ = runAccess ⟨true, Reg.cmd.offset, 32, c &&& 0x00000003⟩ s := (runAccess_cmd _ s).symm

/-- Settles O17: the writes are to five different registers, and writes to different registers commute. -/
theorem setupOrderDoesNotMatter : Obligations.SetupOrderDoesNotMatter := by
  intro s w h src len dst p rest hp
  rw [setup_events] at hp
  obtain ⟨l, hperm, rfl⟩ := exists_perm_of_wrEvents hp
  have hcmd : ∀ x ∈ setupStores w h src len dst, x.1 ≠ .cmd := by simp [setupStores]
  have hrun := runSteps_wrEvents rest (fun x hx => hcmd x (hperm.subset hx)) s
  rw [hperm.length_eq, foldl_store_perm hperm (show operandRegs.Nodup by decide) s] at hrun
  exact hrun

/-- Settles O52: no check of the two actions stops them, and the read finds the bytes just written. -/
theorem hostMemoryWriteThenReadReturnsTheBytes : Obligations.HostMemoryWriteThenReadReturnsTheBytes := by
  intro s a bs rest hwf hfit hwin hsrc hdst
  have hwin := Platform.windowMeets_eq_false_iff.2 hwin
  refine ⟨_, _, step_memWrite rfl hfit hwin hsrc hdst, step_memRead rfl hfit hwin hdst, ?_, rfl,
    fun x hx => Memory.read_writeBytes_outside hx, rfl⟩
  exact congrArg Response.bytes (Memory.readBytes_writeBytes hwf hfit)

/-- Settles O2: a write to CMD decodes by `decodeCommand`, which looks at START and MODE alone. -/
theorem commandDecodeIsTotal : Obligations.CommandDecodeIsTotal := by
  intro c
  have hc : decodeWord (accessWord true Reg.cmd.offset c) = .ok (decodeCommand c) := by
    rw [decodeWord_accessWord, decodeAccess_write_cmd]
  exact hc

/-- Settles O7: an access runs what it fetches, and the access of a table word fetches what that word
decodes to. -/
theorem stepRunsTheDecodedAccess : Obligations.StepRunsTheDecodedAccess :=
  ⟨fun _ _ _ _ hq hwidth h => step_of_access hq (fetchAccess_of_decodeWord hwidth h),
    fun _ _ _ _ h => step_of_access rfl (fetchAccess_tableAccess h)⟩

/-- Settles O49, from the values of the STATUS word and the five values STATUS can hold. -/
theorem statusWordLayout : Obligations.StatusWordLayout :=
  ⟨fun busy done err code => ⟨statusWord_toNat busy done err code, statusWord_fields busy done err code⟩,
    fun _ h => legalStatus_layout h.status_legal, rfl, rfl⟩

end

section
/-!
PROOFS of the statements on 40_header.md: the size functions, the fields of the header, and the length a completed file
states of itself.
-/

namespace Sys2Proof.Machine

/-! ## The size arithmetic (R102, R103, R133, R154) -/

theorem pad4_eq_zero_iff {n : Nat} : pad4 n = 0 ↔ n % 4 = 0 := by unfold pad4; omega

theorem rowBytes_pos (m : Mode) {w : Nat} (hw : 1 ≤ w) : 1 ≤ rowBytes m w := by
  cases m with
  | tc => rw [rowBytes]; omega
  | mono => rw [rowBytes, ceilDiv_eight]; omega

/-- A row and its padding are the least multiple of 4 that holds the row. -/
theorem stride_eq_ceil (m : Mode) (w : Nat) : stride m w = (rowBytes m w + 3) / 4 * 4 := by
  unfold stride pad4
  omega

theorem stride_mod_four (m : Mode) (w : Nat) : stride m w % 4 = 0 := add_pad4_mod (rowBytes m w)

theorem four_le_stride (m : Mode) {w : Nat} (hw : 1 ≤ w) : 4 ≤ stride m w := by
  have hrow := rowBytes_pos m hw
  rw [stride_eq_ceil]
  omega

/-- `ceil(ceil(w / 8) / 4) = ceil(w / 32)`. -/
theorem stride_mono (w : Nat) : stride .mono w = 4 * ((w + 31) / 32) := by
  rw [stride_eq_ceil, rowBytes, ceilDiv_eight]
  omega

/-! ## The header's fields (R105 to R116) -/

theorem offBits_lt (m : Mode) : offBits m < 2 ^ 32 := by cases m <;> decide

theorem bpp_lt (m : Mode) : bpp m < 2 ^ 16 := by cases m <;> decide

/-- The header's fields in the order of the layout (R78, R79). -/
def hdrFields (m : Mode) (w h z : Nat) : List (List Byte) :=
  [[0x42, 0x4D], le32 (fileSize m w h), le16 0, le16 0, le32 (offBits m),
    le32 40, le32 w, le32 h, le16 1, le16 (bpp m), le32 0, le32 z, le32 0, le32 0, le32 0, le32 0]

/-- The bytes of each field. -/
def hdrWidths : List Nat := [2, 4, 2, 2, 4, 4, 4, 4, 2, 2, 4, 4, 4, 4, 4, 4]

/-- A field begins where the fields before it end. -/
def hdrOffset (i : Nat) : Nat := (hdrWidths.take i).sum

theorem hdr_eq_flatten (m : Mode) (w h z : Nat) : hdr m w h z = (hdrFields m w h z).flatten := by
  simp [hdr, fileHeader, infoHeader, hdrFields]

theorem hdrFields_map_length (m : Mode) (w h z : Nat) : (hdrFields m w h z).map List.length = hdrWidths := rfl

/-- The header's slice at the offset of field `i`, as long as that field, is the field. -/
theorem hdr_slice {m : Mode} {w h z i : Nat} {f : List Byte} (hf : (hdrFields m w h z)[i]? = some f) :
    ((hdr m w h z).drop (hdrOffset i)).take f.length = f := by
  obtain ⟨hi, rfl⟩ := List.getElem?_eq_some_iff.1 hf
  rw [hdr_eq_flatten, hdrOffset, ← hdrFields_map_length m w h z, List.drop_sum_flatten, List.drop_eq_getElem_cons hi,
    List.flatten_cons, List.take_left]

/-- A four-byte field that is `LE32` of a number below 2^32 reads as that number. -/
theorem hdr_field_le32 {m : Mode} {w h z off v : Nat} (i : Nat) (hf : (hdrFields m w h z)[i]? = some (le32 v))
    (hoff : hdrOffset i = off) (hv : v < 2 ^ 32) : bytesToNat (((hdr m w h z).drop off).take 4) = v := by
  have hslice := hdr_slice hf
  rw [le32_length, hoff] at hslice
  rw [hslice, bytesToNat_le32 hv]

/-- A two-byte field that is `LE16` of a number below 2^16 reads as that number. -/
theorem hdr_field_le16 {m : Mode} {w h z off v : Nat} (i : Nat) (hf : (hdrFields m w h z)[i]? = some (le16 v))
    (hoff : hdrOffset i = off) (hv : v < 2 ^ 16) : bytesToNat (((hdr m w h z).drop off).take 2) = v := by
  have hslice := hdr_slice hf
  rw [le16_length, hoff] at hslice
  rw [hslice, bytesToNat_le16 hv]

/-- bfSize, at offsets 2 to 5, is the file's length (R106). -/
theorem hdr_bfSize {m : Mode} {w h : Nat} (z : Nat) (hsize : fileSize m w h < 2 ^ 32) :
    bytesToNat (((hdr m w h z).drop 2).take 4) = fileSize m w h :=
  hdr_field_le32 1 rfl rfl hsize

/-! ## The file begins with the header (R137, R160) -/

/-- The operand `sizeImage` of the header a mode's file begins with (R136, R159). -/
def sizeImage : Mode → Nat → Nat → Nat
  | .tc => sizeImageTc
  | .mono => sizeImageMono

theorem encodeFile_eq_hdr_append (mem : Memory) (l : Latch) :
    ∃ data, encodeFile mem l = hdr l.mode l.w l.h (sizeImage l.mode l.w l.h) ++ data := by
  unfold encodeFile
  cases l.mode with
  | tc => exact ⟨tcData mem l, rfl⟩
  | mono => exact ⟨pal ++ monoData mem l, List.append_assoc _ _ _⟩

/-- A field of the header is read from the file at the same offset. -/
theorem encodeFile_header_field (mem : Memory) (l : Latch) {off n : Nat} (hin : off + n ≤ 54) :
    ((encodeFile mem l).drop off).take n =
      ((hdr l.mode l.w l.h (sizeImage l.mode l.w l.h)).drop off).take n := by
  obtain ⟨data, hfile⟩ := encodeFile_eq_hdr_append mem l
  rw [hfile, List.drop_append_of_le_length (by rw [hdr_length]; omega),
    List.take_append_of_le_length (by rw [List.length_drop, hdr_length]; omega)]

/-- The file of a valid record is as long as the record says. -/
theorem Latch.Valid.encodeFile_length {l : Latch} (h : l.Valid) (mem : Memory) :
    (encodeFile mem l).length = l.total := by
  rw [Machine.encodeFile_length, h.total_eq]

theorem Latch.Valid.total_lt {l : Latch} (h : l.Valid) : l.total < 2 ^ 32 := Nat.lt_of_le_pred (by decide) h.total_fits

theorem Latch.Valid.header_le_total {l : Latch} (h : l.Valid) : 54 ≤ l.total := by
  rw [h.total_eq]
  exact offBits_le_fileSize _ _ _

/-- Bytes 2 to 5 of a valid record's file hold the file's length (R119). -/
theorem Latch.Valid.encodeFile_bfSize {l : Latch} (h : l.Valid) (mem : Memory) :
    bytesToNat (((encodeFile mem l).drop 2).take 4) = l.total := by
  have hsize : fileSize l.mode l.w l.h < 2 ^ 32 := h.total_eq ▸ h.total_lt
  rw [encodeFile_header_field mem l (by decide), hdr_bfSize _ hsize, h.total_eq]

/-! ## The completed file in memory (R195) -/

/-- A read inside the bytes just written finds the slice of them at that offset. -/
theorem Memory.readBytes_writeBytes_slice {m : Memory} {a off n : Nat} {bs : List Byte} (h : Memory.wf m = true)
    (ha : a + bs.length ≤ Config.addrSpace) (hin : off + n ≤ bs.length) :
    Memory.readBytes (Memory.writeBytes m a bs) (a + off) n = (bs.drop off).take n := by
  refine List.ext_getElem (by simp; omega) fun i hi _ => ?_
  rw [Memory.readBytes_length] at hi
  simp only [Memory.readBytes, List.getElem_map, List.getElem_range, List.getElem_take, List.getElem_drop,
    Nat.add_assoc]
  exact Memory.read_writeBytes_inside h ha (by omega)

/-- After completion, a read inside the destination region finds the slice of the file at that offset. -/
theorem readBytes_engineComplete {s : State} (hm : Memory.wf s.mem = true) (hl : s.latch.Valid) {off n : Nat}
    (hin : off + n ≤ s.latch.total) :
    Memory.readBytes s.engineComplete.mem (s.latch.dst + off) n = ((encodeFile s.mem s.latch).drop off).take n := by
  have hlen := hl.encodeFile_length s.mem
  exact Memory.readBytes_writeBytes_slice hm (hlen ▸ hl.dst_fits) (hlen ▸ hin)

/-- While BUSY with memory admitted, a turn of the engine completes the command. -/
theorem step_engine_complete {s : State} {rest : List Event} (hbusy : s.phase = .busy)
    (hadm : s.latch.Admitted s.plat) :
    step { s with inbox := .engine :: rest } = .next (State.engineComplete { s with inbox := rest }) := by
  have hen : State.engineEnabled { s with inbox := rest } = true := State.engineEnabled_iff.2 ⟨hbusy, hadm⟩
  rw [step_of_inbox_cons rfl, runEvent, State.engineTurn, if_pos hen]

end Sys2Proof.Machine

open Sys2Proof Sys2Proof.Machine

/-- Settles O35: each field stands at its offset in the layout, and its value fits it. -/
theorem headerFieldsHaveTheirValues : Obligations.HeaderFieldsHaveTheirValues := by
  intro m w h z hw hh hz hsize
  exact ⟨hdr_length m w h z, hdr_slice (i := 0) rfl,
    hdr_bfSize z hsize, hdr_field_le16 2 rfl rfl (by decide), hdr_field_le16 3 rfl rfl (by decide),
    hdr_field_le32 4 rfl rfl (offBits_lt m),
    hdr_field_le32 5 rfl rfl (by decide), hdr_field_le32 6 rfl rfl (by omega), hdr_field_le32 7 rfl rfl (by omega),
    hdr_field_le16 8 rfl rfl (by decide), hdr_field_le16 9 rfl rfl (bpp_lt m), hdr_field_le32 10 rfl rfl (by decide),
    hdr_field_le32 11 rfl rfl hz, hdr_field_le32 12 rfl rfl (by decide), hdr_field_le32 13 rfl rfl (by decide),
    hdr_field_le32 14 rfl rfl (by decide), hdr_field_le32 15 rfl rfl (by decide)⟩

/-- Settles O36: the step is the completion, which writes the file at `L.dst` and its length to OUT_LEN; bytes 2 to 5 of
the file are bfSize. -/
theorem fileStatesItsOwnLength : Obligations.FileStatesItsOwnLength := by
  intro s t rest hinv hbusy hadm hstep
  have hvalid := hinv.latch_valid hbusy
  rw [step_engine_complete hbusy hadm] at hstep
  cases hstep
  rw [hvalid.encodeFile_length]
  constructor
  · have hfield : 2 + 4 ≤ s.latch.total := le_trans (by decide) hvalid.header_le_total
    have hread := readBytes_engineComplete hinv.mem_wf hvalid hfield
    exact (congrArg bytesToNat hread).trans (hvalid.encodeFile_bfSize s.mem)
  · rw [State.engineComplete_outLen, BitVec.toNat_ofNat]
    exact Nat.mod_eq_of_lt hvalid.total_lt

/-- Settles O34, from the stride as the least multiple of 4 that holds the row's bytes. -/
theorem sizeFunctionsAreTheSpecs : Obligations.SizeFunctionsAreTheSpecs := by
  intro w h n hw
  exact ⟨⟨rfl, add_pad4_mod n, pad4_eq_zero_iff⟩, ⟨rfl, rfl⟩, ⟨rfl, ceilDiv_eight w⟩,
    fun m => ⟨rfl, stride_mod_four m w, four_le_stride m hw, rfl⟩, stride_eq_ceil .tc w, stride_mono w⟩

end

section
/-!
PROOFS of the statements on 41_truecolor.md: the bytes of a truecolor row, their places in the file, and biSizeImage in
both modes.
-/

namespace Sys2Proof.Machine

/-! ## biSizeImage (R115, R136, R159) -/

/-- The source region, of `4wh` bytes, lies in the address space (R51, R190). -/
theorem Latch.Valid.pixels_le {l : Latch} (h : l.Valid) : 4 * (l.w * l.h) ≤ 2 ^ 32 := by
  rw [← Nat.mul_assoc, ← h.len_eq]
  exact le_of_add_le_right h.src_fits

theorem sizeImage_tc (w h : Nat) : sizeImage .tc w h = 3 * w * h := rfl

theorem sizeImage_mono (w h : Nat) : sizeImage .mono w h = (w * h + 7) / 8 := rfl

/-- The image size fits its field in both modes: it is less than the `4wh` bytes of the source region. -/
theorem Latch.Valid.sizeImage_lt {l : Latch} (h : l.Valid) (m : Mode) : sizeImage m l.w l.h < 2 ^ 32 := by
  have hpix := h.pixels_le
  cases m with
  | tc => rw [sizeImage_tc, Nat.mul_assoc]; omega
  | mono => rw [sizeImage_mono]; omega

/-- Bytes 34 to 37 of a valid record's file hold the image size of its mode. -/
theorem Latch.Valid.encodeFile_sizeImage {l : Latch} (h : l.Valid) (mem : Memory) :
    bytesToNat (((encodeFile mem l).drop 34).take 4) = sizeImage l.mode l.w l.h := by
  rw [encodeFile_header_field mem l (by decide)]
  exact hdr_field_le32 11 rfl rfl (h.sizeImage_lt l.mode)

/-! ## The bytes of a truecolor row (R131, R134) -/

theorem zeros_getElem? {n i : Nat} (h : i < n) : (zeros n)[i]? = some 0x00 := by
  rw [zeros, List.getElem?_replicate_of_lt h]

/-- Pixel `x` of a row stands at bytes `3x` to `3x + 2` of it. -/
theorem tcRow_getElem?_pixel (mem : Memory) (l : Latch) (y : Nat) {x c : Nat} (hx : x < l.w) (hc : c < 3) :
    (tcRow mem l y)[3 * x + c]? = (bgr mem l x y)[c]? := by
  have hin : 3 * x + c < (concat l.w fun x => bgr mem l x y).length := by rw [bgrRow_length]; omega
  rw [tcRow, List.getElem?_append_left hin, Nat.mul_comm 3 x]
  exact concat_getElem? (fun _ _ => rfl) hx hc

/-- The bytes after a row's last pixel are 0x00. -/
theorem tcRow_getElem?_padding (mem : Memory) (l : Latch) (y : Nat) {p : Nat} (hp : p < pad4 (rowBytes .tc l.w)) :
    (tcRow mem l y)[3 * l.w + p]? = some 0x00 := by
  have hrow : (concat l.w fun x => bgr mem l x y).length = 3 * l.w := by rw [bgrRow_length, Nat.mul_comm]
  rw [tcRow, List.getElem?_append_right (by omega), hrow, Nat.add_sub_cancel_left, zeros_getElem? hp]

/-! ## The rows' places in the file (R135, R137) -/

/-- Emitted row `r` begins at file offset `54 + r * stride` and is image row `h - 1 - r`. -/
theorem encodeFile_getElem?_tcRow (mem : Memory) {l : Latch} (hm : l.mode = .tc) {r i : Nat} (hr : r < l.h)
    (hi : i < stride .tc l.w) :
    (encodeFile mem l)[54 + r * stride .tc l.w + i]? = (tcRow mem l (l.h - 1 - r))[i]? := by
  have hfile : encodeFile mem l = encTc mem l := by rw [encodeFile, hm]
  have hdata : (tcData mem l)[r * stride .tc l.w + i]? = (tcRow mem l (l.h - 1 - r))[i]? :=
    concat_getElem? (fun _ _ => tcRow_length _ _ _) hr hi
  rw [hfile, encTc, List.getElem?_append_right (by rw [hdr_length]; omega), hdr_length, Nat.add_assoc,
    Nat.add_sub_cancel_left, hdata]

/-- Each channel of a pixel is found in the file at its row's and its pixel's place. -/
theorem encodeFile_getElem?_bgr (mem : Memory) {l : Latch} (hm : l.mode = .tc) {r x c : Nat} (hr : r < l.h)
    (hx : x < l.w) (hc : c < 3) :
    (encodeFile mem l)[54 + r * stride .tc l.w + 3 * x + c]? = (bgr mem l x (l.h - 1 - r))[c]? := by
  have hi : 3 * x + c < stride .tc l.w := by rw [stride, rowBytes]; omega
  rw [Nat.add_assoc _ (3 * x), encodeFile_getElem?_tcRow mem hm hr hi, tcRow_getElem?_pixel mem l _ hx hc]

theorem encodeFile_getElem?_tcPadding (mem : Memory) {l : Latch} (hm : l.mode = .tc) {r p : Nat} (hr : r < l.h)
    (hp : p < pad4 (rowBytes .tc l.w)) :
    (encodeFile mem l)[54 + r * stride .tc l.w + 3 * l.w + p]? = some 0x00 := by
  have hi : 3 * l.w + p < stride .tc l.w := Nat.add_lt_add_left hp _
  rw [Nat.add_assoc _ (3 * l.w), encodeFile_getElem?_tcRow mem hm hr hi, tcRow_getElem?_padding mem l _ hp]

end Sys2Proof.Machine

open Sys2Proof Sys2Proof.Machine

/-- Settles O37: the field is the header's operand `sizeImage`, and it fits because the `4wh` source bytes lie in the
address space. -/
theorem imageSizeFieldIsTheUnpaddedValue : Obligations.ImageSizeFieldIsTheUnpaddedValue := by
  intro mem l hvalid
  refine ⟨hvalid.sizeImage_lt .tc, hvalid.sizeImage_lt .mono, ?_⟩
  rw [hvalid.encodeFile_sizeImage mem]
  cases l.mode with
  | tc => exact sizeImage_tc l.w l.h
  | mono => exact sizeImage_mono l.w l.h

/-- Settles O38, from the place of each row in the file and of each pixel in its row. -/
theorem truecolorPixelBytes : Obligations.TruecolorPixelBytes := by
  intro mem l r x p hm hr
  constructor
  · intro hx
    exact ⟨encodeFile_getElem?_bgr mem hm (c := 0) hr hx (by decide),
      encodeFile_getElem?_bgr mem hm (c := 1) hr hx (by decide),
      encodeFile_getElem?_bgr mem hm (c := 2) hr hx (by decide)⟩
  · exact encodeFile_getElem?_tcPadding mem hm hr

end

section
/-!
PROOFS of the statements on 42_monochrome.md: the bits of a packed byte, the bytes of a monochrome row, their places in
the file, and the palette.
-/

namespace Sys2Proof.Machine

/-! ## The bits of a packed byte (R150, R153) -/

/-- The number whose `n` binary digits are `f 0` to `f (n - 1)`, the most significant first, in Horner's form: one more
digit doubles the number and adds the digit. -/
theorem sum_msbFirst_succ (f : Nat → Bool) (n : Nat) :
    ((List.range (n + 1)).map fun i => (f i).toNat * 2 ^ (n - i)).sum =
      Nat.bit (f n) ((List.range n).map fun i => (f i).toNat * 2 ^ (n - 1 - i)).sum := by
  have hshift : ∀ i ∈ List.range n, (f i).toNat * 2 ^ (n - i) = 2 * ((f i).toNat * 2 ^ (n - 1 - i)) := by
    intro i hi
    have hin : i < n := List.mem_range.1 hi
    rw [show n - i = n - 1 - i + 1 by omega, Nat.pow_succ]
    ring
  rw [List.range_succ, List.map_append, List.sum_append, List.map_congr_left hshift, List.sum_map_mul_left, Nat.bit_val]
  simp

/-- Digit `j` of `n` digits, the most significant first, is bit `n - 1 - j` of their number. -/
theorem testBit_sum_msbFirst (f : Nat → Bool) {n j : Nat} (hj : j < n) :
    ((List.range n).map fun i => (f i).toNat * 2 ^ (n - 1 - i)).sum.testBit (n - 1 - j) = f j := by
  induction n with
  | zero => exact absurd hj (Nat.not_lt_zero j)
  | succ n ih =>
    rw [Nat.add_sub_cancel, sum_msbFirst_succ]
    rcases Nat.lt_succ_iff_lt_or_eq.1 hj with hlt | rfl
    · rw [show n - j = n - 1 - j + 1 by omega, Nat.testBit_bit_succ, ih hlt]
    · rw [Nat.sub_self, Nat.testBit_bit_zero]

/-- A packed bit is the truth value of "the pixel is inside the row and its red byte is 0xFF". -/
theorem packedBit_eq_toNat (m : Memory) (l : Latch) (x y : Nat) :
    packedBit m l x y = (decide (x < l.w) && decide (pixR m l x y = 0xFF)).toNat := by
  have hlt := packedBit_lt_two m l x y
  by_cases h : x < l.w ∧ pixR m l x y = 0xFF
  · rw [packedBit_eq_one.2 h, decide_eq_true h.1, decide_eq_true h.2]
    rfl
  · have hzero : packedBit m l x y = 0 := by
      have hne := mt packedBit_eq_one.1 h
      omega
    rw [hzero, ← Bool.decide_and, decide_eq_false h]
    rfl

/-- Bit `7 - j` of packed byte `k` is the bit of pixel `8k + j`. -/
theorem packByte_getLsbD (m : Memory) (l : Latch) (k y : Nat) {j : Nat} (hj : j < 8) :
    (packByte m l k y).getLsbD (7 - j) = (decide (8 * k + j < l.w) && decide (pixR m l (8 * k + j) y = 0xFF)) := by
  have hbit : 7 - j < 8 := by omega
  simp only [packByte, packedBit_eq_toNat, BitVec.getLsbD_ofNat, decide_eq_true hbit, Bool.true_and]
  exact testBit_sum_msbFirst (n := 8) (fun j => decide (8 * k + j < l.w) && decide (pixR m l (8 * k + j) y = 0xFF)) hj

/-! ## The bytes of a monochrome row (R155) -/

theorem monoRow_getElem?_packed (mem : Memory) (l : Latch) (y : Nat) {k : Nat} (hk : k < rowBytes .mono l.w) :
    (monoRow mem l y)[k]? = some (packByte mem l k y) := by
  have hin : k < (concat (rowBytes .mono l.w) fun k => [packByte mem l k y]).length := by rwa [packRow_length]
  have hpiece := concat_getElem? (f := fun k => [packByte mem l k y]) (fun _ _ => rfl) hk Nat.zero_lt_one
  rw [Nat.mul_one] at hpiece
  rw [monoRow, List.getElem?_append_left hin]
  exact hpiece

/-- The bytes after a row's last packed byte are 0x00. -/
theorem monoRow_getElem?_padding (mem : Memory) (l : Latch) (y : Nat) {p : Nat} (hp : p < pad4 (rowBytes .mono l.w)) :
    (monoRow mem l y)[rowBytes .mono l.w + p]? = some 0x00 := by
  have hrow := packRow_length mem l y (rowBytes .mono l.w)
  rw [monoRow, List.getElem?_append_right (by omega), hrow, Nat.add_sub_cancel_left, zeros_getElem? hp]

/-! ## The places of the palette and of the rows in the file (R156, R157, R160) -/

theorem encodeFile_of_mono (mem : Memory) {l : Latch} (hm : l.mode = .mono) :
    encodeFile mem l = hdr .mono l.w l.h (sizeImageMono l.w l.h) ++ pal ++ monoData mem l := by
  rw [encodeFile, hm, encMono]

/-- The palette follows the 54 bytes of the header. -/
theorem encodeFile_palette (mem : Memory) {l : Latch} (hm : l.mode = .mono) :
    ((encodeFile mem l).drop 54).take 8 = pal := by
  rw [encodeFile_of_mono mem hm, List.append_assoc, List.drop_left' (hdr_length ..), List.take_left' pal_length]

/-- Emitted row `r` begins at file offset `62 + r * stride` and is image row `h - 1 - r`. -/
theorem encodeFile_getElem?_monoRow (mem : Memory) {l : Latch} (hm : l.mode = .mono) {r i : Nat} (hr : r < l.h)
    (hi : i < stride .mono l.w) :
    (encodeFile mem l)[62 + r * stride .mono l.w + i]? = (monoRow mem l (l.h - 1 - r))[i]? := by
  have hhead : (hdr .mono l.w l.h (sizeImageMono l.w l.h) ++ pal).length = 62 := rfl
  have hdata : (monoData mem l)[r * stride .mono l.w + i]? = (monoRow mem l (l.h - 1 - r))[i]? :=
    concat_getElem? (fun _ _ => monoRow_length _ _ _) hr hi
  rw [encodeFile_of_mono mem hm, List.getElem?_append_right (by omega), hhead, Nat.add_assoc, Nat.add_sub_cancel_left,
    hdata]

theorem encodeFile_getElem?_packByte (mem : Memory) {l : Latch} (hm : l.mode = .mono) {r k : Nat} (hr : r < l.h)
    (hk : k < rowBytes .mono l.w) :
    (encodeFile mem l)[62 + r * stride .mono l.w + k]? = some (packByte mem l k (l.h - 1 - r)) := by
  have hi : k < stride .mono l.w := Nat.lt_add_right _ hk
  rw [encodeFile_getElem?_monoRow mem hm hr hi, monoRow_getElem?_packed mem l _ hk]

theorem encodeFile_getElem?_monoPadding (mem : Memory) {l : Latch} (hm : l.mode = .mono) {r p : Nat} (hr : r < l.h)
    (hp : p < pad4 (rowBytes .mono l.w)) :
    (encodeFile mem l)[62 + r * stride .mono l.w + rowBytes .mono l.w + p]? = some 0x00 := by
  have hi : rowBytes .mono l.w + p < stride .mono l.w := Nat.add_lt_add_left hp _
  rw [Nat.add_assoc _ (rowBytes .mono l.w), encodeFile_getElem?_monoRow mem hm hr hi,
    monoRow_getElem?_padding mem l _ hp]

end Sys2Proof.Machine

open Sys2Proof Sys2Proof.Machine

/-- Settles O39, from the place of each packed byte in the file and the bits of a packed byte. -/
theorem monochromePixelBits : Obligations.MonochromePixelBits := by
  intro mem l r k p hm hr
  constructor
  · intro hk
    exact ⟨packByte mem l k (l.h - 1 - r), encodeFile_getElem?_packByte mem hm hr hk,
      fun _ hj => packByte_getLsbD mem l k (l.h - 1 - r) hj⟩
  · exact encodeFile_getElem?_monoPadding mem hm hr

/-- Settles O40: the palette stands between the header and the rows. -/
theorem monochromeFileHoldsThePalette : Obligations.MonochromeFileHoldsThePalette :=
  fun mem _ hm => encodeFile_palette mem hm

end

section
/-!
PROOFS of the statements on 43_commands.md: register writes and reads, what a START does, the engine's completion, what
changes system memory, and a whole command from START to DONE.
-/

namespace Sys2Proof

/-! ## Accesses to the reserved slots (R197, R207) -/

/-- A word-aligned offset from 0x20 on is a reserved slot's. -/
theorem exists_rsvd_offset {off : BitVec 6} (hlo : 0x20 ≤ off.toNat) (haligned : off.toNat % 4 = 0) :
    ∃ k, (Reg.rsvd k).offset = off := by
  rw [← isReservedOffset_iff]
  revert off
  decide

theorem decodeWord_write_rsvd {off : BitVec 6} (hlo : 0x20 ≤ off.toNat) (haligned : off.toNat % 4 = 0) (v : Word) :
    decodeWord (accessWord true off v) = .ok (.wrRsvd off v) := by
  obtain ⟨k, rfl⟩ := exists_rsvd_offset hlo haligned
  rw [decodeWord_accessWord, decodeAccess, decodeWrite, regAt_offset]

theorem decodeWord_read_rsvd {off : BitVec 6} (hlo : 0x20 ≤ off.toNat) (haligned : off.toNat % 4 = 0) (d : Word) :
    decodeWord (accessWord false off d) = .ok (.rdRsvd off d) := by
  obtain ⟨k, rfl⟩ := exists_rsvd_offset hlo haligned
  rw [decodeWord_accessWord, decodeAccess, decodeRead, regAt_offset]

/-- A command word with START = 0 is a NOP (R72). -/
theorem decodeCommand_of_not_start {c : Word} (h : commandStart c = false) :
    decodeCommand c = .nop (commandMode c) (commandIgn c) := by
  rw [decodeCommand, h]

end Sys2Proof

namespace Sys2Proof.Machine

/-! ## A START in the words of the spec (R191 to R194) -/

theorem start_of_busy (m : Mode) {s : State} (hp : s.phase = .busy) : start m s = .next s := by
  rw [start, hp]

theorem start_of_idle (m : Mode) {s : State} (hp : s.phase = .idle) : start m s = startCommand m s := by
  rw [start, hp]

theorem startCommand_of_not_bufferValid (m : Mode) {s : State} (hb : ¬ s.BufferValid) :
    startCommand m s = .next (s.raise .invalidBuffer) := by
  rw [← validateOk_iff_bufferValid] at hb
  simp [startCommand, hb]

theorem startCommand_of_not_rangeValid {m : Mode} {s : State} (hb : s.BufferValid) (hr : ¬ s.RangeValid m) :
    startCommand m s = .next (s.raise .range) := by
  rw [← validateOk_iff_bufferValid] at hb
  rw [← rangeOk_startLatch_iff, ← operandsOf_eq_startLatch] at hr
  simp [startCommand, hb, hr]

theorem regionsMeet_startLatch_eq_false_iff {m : Mode} {s : State} :
    regionsMeet (s.startLatch m).src (s.startLatch m).len (s.startLatch m).dst (s.startLatch m).total = false ↔
      s.RegionsApart m := by
  rw [← Bool.not_eq_true, regionsMeet_startLatch_iff, not_not]

theorem startCommand_of_valid {m : Mode} {s : State} (hb : s.BufferValid) (hr : s.RangeValid m)
    (hd : s.RegionsApart m) : startCommand m s = .next (s.accept (s.startLatch m)) := by
  rw [← validateOk_iff_bufferValid] at hb
  rw [← rangeOk_startLatch_iff, ← operandsOf_eq_startLatch] at hr
  rw [← regionsMeet_startLatch_eq_false_iff, ← operandsOf_eq_startLatch] at hd
  rw [← operandsOf_eq_startLatch]
  simp [startCommand, hb, hr, hd]

/-- A START that passes every check is accepted with the record of the registers. -/
theorem exec_startInstr_accepts {m : Mode} {s : State} (ign : BitVec 30) (hp : s.phase = .idle) (hb : s.BufferValid)
    (hr : s.RangeValid m) (hd : s.RegionsApart m) : exec (startInstr m ign) s = .next (s.accept (s.startLatch m)) := by
  rw [exec_startInstr, start_of_idle m hp, startCommand_of_valid hb hr hd]

/-- The record of registers that pass every check is valid (R34). -/
theorem State.startLatch_valid {m : Mode} {s : State} (hb : s.BufferValid) (hr : s.RangeValid m)
    (hd : s.RegionsApart m) : (s.startLatch m).Valid := by
  rw [← rangeOk_startLatch_iff, ← operandsOf_eq_startLatch] at hr
  rw [← regionsMeet_startLatch_eq_false_iff, ← operandsOf_eq_startLatch] at hd
  rw [← operandsOf_eq_startLatch]
  exact operandsOf_valid (validateOk_iff_bufferValid.2 hb) hr hd

/-! ## The tallest one-wide image (R190) -/

theorem State.startTotal_tallest {s : State} (hw : s.width = 1) (hh : s.height = 0x3FFFFFFF) (m : Mode) :
    s.startTotal m = 2 ^ 32 - 4 + offBits m := by
  rw [State.startTotal, hw, hh]
  cases m <;> rfl

theorem State.not_rangeValid_tallest {s : State} (hw : s.width = 1) (hh : s.height = 0x3FFFFFFF) (m : Mode) :
    ¬ s.RangeValid m := by
  rintro ⟨hfits, -, -⟩
  rw [State.startTotal_tallest hw hh] at hfits
  cases m <;> exact absurd hfits (by decide)

theorem State.bufferValid_tallest {s : State} (hw : s.width = 1) (hh : s.height = 0x3FFFFFFF)
    (hl : s.srcLen = 0xFFFFFFFC) : s.BufferValid := by
  rw [State.BufferValid, hw, hh, hl]
  decide

/-! ## Completion: the file in memory (R195) -/

theorem engineComplete_read_file {s : State} (hm : Memory.wf s.mem = true) (hl : s.latch.Valid) {i : Nat}
    (hi : i < s.latch.total) :
    (encodeFile s.mem s.latch)[i]? = some (Memory.read s.engineComplete.mem (s.latch.dst + i)) := by
  have hlen := hl.encodeFile_length s.mem
  have hin : i < (encodeFile s.mem s.latch).length := hlen.symm ▸ hi
  have hread := Memory.read_writeBytes_inside hm (hlen.symm ▸ hl.dst_fits) hin
  rw [List.getElem?_eq_getElem hin]
  exact congrArg some hread.symm

theorem engineComplete_read_outside {s : State} (hl : s.latch.Valid) {a : Nat}
    (ha : a < s.latch.dst ∨ s.latch.dst + s.latch.total ≤ a) :
    Memory.read s.engineComplete.mem a = Memory.read s.mem a := by
  rw [← hl.encodeFile_length s.mem] at ha
  exact Memory.read_writeBytes_outside ha

theorem engineComplete_outLen_toNat {s : State} (hl : s.latch.Valid) : s.engineComplete.outLen.toNat = s.latch.total :=
  Nat.mod_eq_of_lt hl.total_lt

/-! ## Equal commands (R208) -/

/-- A pixel's four bytes lie in the source region (R51, R53). -/
theorem pixAddr_in_source {l : Latch} (hlen : l.len = 4 * l.w * l.h) {x y c : Nat} (hx : x < l.w) (hy : y < l.h)
    (hc : c < 4) : l.src ≤ pixAddr l x y + c ∧ pixAddr l x y + c < l.src + l.len := by
  have hrow : (y + 1) * l.w ≤ l.h * l.w := Nat.mul_le_mul_right _ hy
  rw [Nat.succ_mul, Nat.mul_comm l.h] at hrow
  rw [pixAddr, hlen, Nat.mul_assoc]
  omega

/-- Memories with equal source regions hold the same image. -/
theorem SameUsedBytes.of_source_eq {m1 m2 : Memory} {l : Latch} (hl : l.Valid)
    (heq : ∀ a, l.src ≤ a → a < l.src + l.len → Memory.read m1 a = Memory.read m2 a) : SameUsedBytes m1 m2 l := by
  intro x y hx hy
  have hbyte (c : Nat) (hc : c < 4) : Memory.read m1 (pixAddr l x y + c) = Memory.read m2 (pixAddr l x y + c) :=
    have hin := pixAddr_in_source hl.len_eq hx hy hc
    heq _ hin.1 hin.2
  exact ⟨hbyte 0 (by decide), fun _ => ⟨hbyte 1 (by decide), hbyte 2 (by decide)⟩⟩

/-- Two commands with one valid record and equal source bytes leave equal destination bytes. -/
theorem engineComplete_read_congr {s1 s2 : State} (hm1 : Memory.wf s1.mem = true) (hm2 : Memory.wf s2.mem = true)
    (hlatch : s1.latch = s2.latch) (hl : s1.latch.Valid)
    (heq : ∀ a, s1.latch.src ≤ a → a < s1.latch.src + s1.latch.len → Memory.read s1.mem a = Memory.read s2.mem a)
    {a : Nat} (hlo : s1.latch.dst ≤ a) (hhi : a < s1.latch.dst + s1.latch.total) :
    Memory.read s1.engineComplete.mem a = Memory.read s2.engineComplete.mem a := by
  obtain ⟨i, rfl⟩ := Nat.exists_eq_add_of_le hlo
  have hi : i < s1.latch.total := Nat.lt_of_add_lt_add_left hhi
  have hfile : encodeFile s1.mem s1.latch = encodeFile s2.mem s2.latch := by
    rw [(SameUsedBytes.of_source_eq hl heq).encodeFile_eq, hlatch]
  have h1 := engineComplete_read_file hm1 hl hi
  have h2 := engineComplete_read_file hm2 (hlatch ▸ hl) (hlatch ▸ hi)
  rw [hfile, h2, hlatch] at h1
  rw [hlatch]
  exact (Option.some.inj h1).symm

theorem State.SameOperands.startLatch_eq {s1 s2 : State} (h : s1.SameOperands s2) (m : Mode) :
    s2.startLatch m = s1.startLatch m := by
  simp only [State.startLatch, State.startTotal, h.width, h.height, h.srcAddr, h.srcLen, h.dstAddr]

theorem State.SameOperands.bufferValid_iff {s1 s2 : State} (h : s1.SameOperands s2) :
    s2.BufferValid ↔ s1.BufferValid := by
  simp only [State.BufferValid, h.width, h.height, h.srcLen]

theorem State.SameOperands.rangeValid_iff {s1 s2 : State} (h : s1.SameOperands s2) (m : Mode) :
    s2.RangeValid m ↔ s1.RangeValid m := by
  simp only [State.RangeValid, State.startTotal, h.width, h.height, h.srcAddr, h.srcLen, h.dstAddr]

theorem State.SameOperands.regionsApart_iff {s1 s2 : State} (h : s1.SameOperands s2) (m : Mode) :
    s2.RegionsApart m ↔ s1.RegionsApart m := by
  simp only [State.RegionsApart, State.startTotal, h.width, h.height, h.srcAddr, h.srcLen, h.dstAddr]

/-- `StartCommand` decides on the operand registers alone: two states that agree in them go the same way. -/
theorem startCommand_congr {m : Mode} {s1 s2 t1 t2 : State} (h : s1.SameOperands s2) (hp : s1.phase = s2.phase)
    (h1 : startCommand m s1 = .next t1) (h2 : startCommand m s2 = .next t2) :
    t1.status = t2.status ∧ t1.outLen = t2.outLen ∧ t1.phase = t2.phase := by
  by_cases hb : s1.BufferValid
  · have hb' := h.bufferValid_iff.2 hb
    by_cases hr : s1.RangeValid m
    · have hr' := (h.rangeValid_iff m).2 hr
      by_cases hd : s1.RegionsApart m
      · rw [startCommand_of_valid hb hr hd] at h1
        rw [startCommand_of_valid hb' hr' ((h.regionsApart_iff m).2 hd)] at h2
        cases h1; cases h2
        simp
      · rw [startCommand_eq_overlap_iff.2 ⟨hb, hr, hd⟩] at h1
        cases h1
    · rw [startCommand_of_not_rangeValid hb hr] at h1
      rw [startCommand_of_not_rangeValid hb' (mt (h.rangeValid_iff m).1 hr)] at h2
      cases h1; cases h2
      simp [hp]
  · rw [startCommand_of_not_bufferValid m hb] at h1
    rw [startCommand_of_not_bufferValid m (mt h.bufferValid_iff.1 hb)] at h2
    cases h1; cases h2
    simp [hp]

/-! ## What changes system memory (R209) -/

theorem engineTurn_plat (s : State) : s.engineTurn.plat = s.plat := by
  rcases engineTurn_cases s with ⟨-, -, e⟩ | ⟨-, e⟩ <;> rw [e]
  rfl

theorem engineTurn_mem (s : State) : s.engineTurn.mem = s.mem ∨ s.phase = .busy ∧ s.latch.Admitted s.plat := by
  rcases engineTurn_cases s with ⟨hen, -, -⟩ | ⟨-, e⟩
  · exact .inr (State.engineEnabled_iff.1 hen)
  · exact .inl (by rw [e])

theorem takeReset_mem (s : State) : s.takeReset.mem = s.mem ∨ s.phase = .busy := by
  cases hp : s.phase with
  | idle => exact .inl (State.takeReset_mem_idle hp)
  | busy => exact .inr rfl

/-- No step changes the platform (assumption 1). -/
theorem step_plat {s t : State} (h : step s = .next t) : t.plat = s.plat := by
  rcases step_causes h with ⟨a, i, q, u, q', -, -, he, rfl⟩ | ⟨-, q, rfl⟩ | ⟨m, q, r, rfl⟩ | ⟨-, q, rfl⟩
  · exact (exec_frame he).2.1
  · exact engineTurn_plat _
  · rfl
  · exact State.takeReset_plat _

/-- Memory is as before, or the step is the engine's completion, a host memory write, or a reset while BUSY. -/
theorem step_mem {s t : State} (h : step s = .next t) :
    t.mem = s.mem ∨
      (s.phase = .busy ∧ s.latch.Admitted s.plat ∧ (s.inbox = [] ∨ s.inbox.head? = some .engine)) ∨
      (∃ a bs, s.inbox.head? = some (.memWrite a bs)) ∨ (s.phase = .busy ∧ s.inbox.head? = some .reset) := by
  rcases step_cases h with ⟨hq, rfl⟩ | ⟨e, q, hq, hacc | hwr | hrd | hfence | heng | hreset⟩
  · exact (engineTurn_mem s).imp_right fun ⟨hp, hadm⟩ => .inl ⟨hp, hadm, .inl hq⟩
  · obtain ⟨a, i, u, -, -, he, q', rfl⟩ := hacc
    exact .inl (exec_frame he).1
  · obtain ⟨a, bs, rfl, -⟩ := hwr
    exact .inr (.inr (.inl ⟨a, bs, by rw [hq]; rfl⟩))
  · obtain ⟨a, n, -, hr⟩ := hrd
    obtain ⟨-, -, rfl⟩ := hostMemRead_next hr
    exact .inl rfl
  · obtain ⟨-, rfl⟩ := hfence
    exact .inl rfl
  · obtain ⟨rfl, rfl⟩ := heng
    exact (engineTurn_mem { s with inbox := q }).imp_right fun ⟨hp, hadm⟩ =>
      .inl ⟨hp, hadm, .inr (by rw [hq]; rfl)⟩
  · obtain ⟨rfl, rfl⟩ := hreset
    exact (takeReset_mem { s with inbox := q }).imp_right fun hp => .inr (.inr ⟨hp, by rw [hq]; rfl⟩)

/-! ## START and WAIT (R210, R253) -/

/-- The CMD write of a START fetches the START. -/
theorem fetchAccess_startInstr (m : Mode) (ign : BitVec 30) :
    fetchAccess ⟨true, 0x00, 32, accessData (encode (startInstr m ign))⟩ = .ok (startInstr m ign) := by
  have hword : accessWord true 0x00 (accessData (encode (startInstr m ign))) = encode (startInstr m ign) := by
    cases m <;> simp only [startInstr, encode, accessData_accessWord]
  apply fetchAccess_of_decodeWord rfl
  rw [hword]
  exact decodeWord_encode (by cases m <;> rfl)

/-- `WAIT` asks of the STATUS it reads that BUSY = 0 (R83). -/
theorem pollHit_not_busy (v : Word) : pollHit 0x00000001 0x00000000 (.word v) = !statusBusy v := by
  have hmask : v &&& 0x00000001 = 0x00000000 ↔ v.getLsbD 0 = false := by
    rw [← BitVec.toNat_inj, BitVec.toNat_and, BitVec.getLsbD, Nat.testBit_zero]
    simp
  calc pollHit 0x00000001 0x00000000 (.word v) = decide (v.getLsbD 0 = false) := decide_eq_decide.2 hmask
    _ = !statusBusy v := Bool.decide_eq_false

theorem runPoll_hit {off : BitVec 6} {mask value : Word} {s t : State}
    (hread : runAccess ⟨false, off, 32, 0⟩ s = .next t)
    (hhit : pollHit mask value t.response = true) : runPoll off mask value s = .next t := by
  rw [runPoll, hread]
  exact congrArg _ (if_pos hhit)

theorem runPoll_miss {off : BitVec 6} {mask value : Word} {s t : State}
    (hread : runAccess ⟨false, off, 32, 0⟩ s = .next t)
    (hmiss : pollHit mask value t.response ≠ true) :
    runPoll off mask value s = .next { t with inbox := .engine :: .poll off mask value :: t.inbox } := by
  rw [runPoll, hread]
  exact congrArg _ (if_neg hmiss)

/-- A read of STATUS through the window. -/
theorem runAccess_status (s : State) :
    runAccess ⟨false, Reg.status.offset, 32, 0⟩ s =
      .next { s with response := .word s.status, openCmds := if statusBusy s.status then s.openCmds else [] } :=
  runAccess_of_fetchAccess (fetchAccess_offset false .status 0) s

/-- `WAIT` while STATUS.BUSY = 1: the host will read again, after a turn of the engine (assumption 10). -/
theorem step_wait_busy {s : State} {q : List Event} (hq : s.inbox = Stmt.events .wait ++ q)
    (hb : statusBusy s.status = true) :
    step s = .next { s with inbox := .engine :: (Stmt.events .wait ++ q), response := .word s.status } := by
  have hread := runAccess_status { s with inbox := q }
  rw [if_pos hb] at hread
  rw [step_of_inbox_cons hq]
  exact runPoll_miss hread (by simp only [pollHit_not_busy, hb]; decide)

/-- `WAIT` while STATUS.BUSY = 0: the read ends it and closes the open intervals (R253, R255). -/
theorem step_wait_done {s : State} {q : List Event} (hq : s.inbox = Stmt.events .wait ++ q)
    (hb : statusBusy s.status = false) :
    step s = .next { s with inbox := q, response := .word s.status, openCmds := [] } := by
  have hread := runAccess_status { s with inbox := q }
  rw [if_neg (by rw [hb]; decide)] at hread
  rw [step_of_inbox_cons hq]
  exact runPoll_hit hread (by simp only [pollHit_not_busy, hb]; decide)

/-- The state after `WAIT` for a running command: completed, STATUS read as 0x2, no interval open. -/
def State.afterWait (s : State) (rest : List Event) : State :=
  { s.engineComplete with inbox := rest, response := .word statusOfDone, openCmds := [] }

/-- `WAIT` for a running command with admitted memory: a read of BUSY = 1, the completion, and a read of DONE. -/
theorem runSteps_wait {s : State} (rest : List Event) (hp : s.phase = .busy) (hb : statusBusy s.status = true)
    (hadm : s.latch.Admitted s.plat) :
    runSteps 3 { s with inbox := Stmt.events .wait ++ rest } = .next (s.afterWait rest) := by
  have hread : step { s with inbox := Stmt.events .wait ++ rest } =
      .next { s with inbox := .engine :: (Stmt.events .wait ++ rest), response := .word s.status } :=
    step_wait_busy rfl hb
  have hengine := step_engine_complete (s := { s with response := .word s.status })
    (rest := Stmt.events .wait ++ rest) hp hadm
  have hdone := step_wait_done
    (s := State.engineComplete { s with inbox := Stmt.events .wait ++ rest, response := .word s.status }) rfl
    statusBusy_statusOfDone
  rw [runSteps_succ_of_next hread, runSteps_succ_of_next hengine, runSteps_succ_of_next hdone]
  rfl

/-- START and `WAIT` from registers that pass every check: the command is accepted, and three more steps complete it. -/
theorem runSteps_command {s : State} {m : Mode} (ign : BitVec 30) (rest : List Event) (hp : s.phase = .idle)
    (hb : s.BufferValid) (hr : s.RangeValid m) (hd : s.RegionsApart m) (hadm : (s.startLatch m).Admitted s.plat) :
    runSteps 4 { s with
        inbox := .access ⟨true, 0x00, 32, accessData (encode (startInstr m ign))⟩ :: Stmt.events .wait ++ rest } =
      .next ((s.accept (s.startLatch m)).afterWait rest) := by
  have hfetch := step_of_access (s := { s with
    inbox := .access ⟨true, 0x00, 32, accessData (encode (startInstr m ign))⟩ :: Stmt.events .wait ++ rest })
    rfl (fetchAccess_startInstr m ign)
  have hstart := exec_startInstr_accepts
    (s := { s with inbox := Stmt.events .wait ++ rest, response := .none }) ign hp hb hr hd
  rw [runSteps_succ_of_next (hfetch.trans hstart)]
  exact runSteps_wait (s := State.accept { s with response := .none } (s.startLatch m)) rest rfl
    statusBusy_statusOfBusy hadm

end Sys2Proof.Machine

open Sys2Proof Sys2Proof.Machine

/-- Settles O19: each check of `StartCommand` is one of the hypotheses. -/
theorem truecolorStartIsAccepted : Obligations.TruecolorStartIsAccepted :=
  fun _ ign hp hb hr hd => exec_startInstr_accepts (m := .tc) ign hp hb hr hd

/-- Settles O20: the same checks, with the Monochrome file length. -/
theorem monochromeStartIsAccepted : Obligations.MonochromeStartIsAccepted :=
  fun _ ign hp hb hr hd => exec_startInstr_accepts (m := .mono) ign hp hb hr hd

/-- Settles O27: the enabled step is the completion, which writes the file of the valid record at `L.dst`. -/
theorem engineCompletesTheCommand : Obligations.EngineCompletesTheCommand := by
  intro s rest
  refine ⟨State.engineEnabled_iff, fun hinv hbusy hadm => ?_⟩
  have hvalid := hinv.latch_valid hbusy
  exact ⟨_, step_engine_complete hbusy hadm, hvalid.encodeFile_length s.mem,
    fun _ hi => engineComplete_read_file hinv.mem_wf hvalid hi, fun _ ha => engineComplete_read_outside hvalid ha,
    engineComplete_outLen_toNat hvalid, rfl⟩

/-- Settles O42: the file depends on the record and the source bytes alone, and `StartCommand` on the operand registers
alone. -/
theorem equalCommandsWriteEqualFiles : Obligations.EqualCommandsWriteEqualFiles := by
  constructor
  · intro s1 s2 t1 t2 q1 q2 hinv1 hinv2 hbusy1 hbusy2 hlatch hadm1 hadm2 hsrc h1 h2
    rw [step_engine_complete hbusy1 hadm1] at h1
    rw [step_engine_complete hbusy2 hadm2] at h2
    cases h1; cases h2
    exact ⟨fun a hlo hhi =>
      engineComplete_read_congr hinv1.mem_wf hinv2.mem_wf hlatch (hinv1.latch_valid hbusy1) hsrc hlo hhi,
      by simp [hlatch], rfl⟩
  · intro s1 s2 t1 t2 m g1 g2 hp1 hp2 hw hh hsrc hlen hdst h1 h2
    rw [exec_startInstr, start_of_idle m hp1] at h1
    rw [exec_startInstr, start_of_idle m hp2] at h2
    exact startCommand_congr ⟨hw.symm, hh.symm, hsrc.symm, hlen.symm, hdst.symm⟩ (hp1.trans hp2.symm) h1 h2

/-- Settles O50, from what each kind of step does to memory and the platform. -/
theorem memoryChangesOnlyByEngineHostOrReset : Obligations.MemoryChangesOnlyByEngineHostOrReset := by
  constructor
  · intro i s t h
    obtain ⟨hmem, hplat, -, -⟩ := exec_frame h
    exact ⟨hmem, hplat⟩
  · intro s t h
    exact ⟨step_plat h, (step_mem h).resolve_left⟩

/-- Settles O56: the four steps leave the started command completed, with its record valid by the checks. -/
theorem commandRunsFromStartToDone : Obligations.CommandRunsFromStartToDone := by
  intro s m ign rest hinv hp hb hr hd hadm
  have hvalid : (s.accept (s.startLatch m)).latch.Valid := State.startLatch_valid hb hr hd
  exact ⟨_, runSteps_command ign rest hp hb hr hd hadm, engineComplete_outLen_toNat hvalid,
    hvalid.encodeFile_length s.mem,
    fun _ hi => engineComplete_read_file (s := s.accept (s.startLatch m)) hinv.mem_wf hvalid hi,
    fun _ ha => engineComplete_read_outside hvalid ha, rfl⟩

/-- Settles O11: each access stands at its register's offset, and the write stores to that register. -/
theorem operandRegisterWritesStoreTheValue : Obligations.OperandRegisterWritesStoreTheValue := fun v _ =>
  ⟨⟨decodeWord_accessWord true .width v, rfl⟩, ⟨decodeWord_accessWord true .height v, rfl⟩,
    ⟨decodeWord_accessWord true .srcAddr v, rfl⟩, ⟨decodeWord_accessWord true .srcLen v, rfl⟩,
    ⟨decodeWord_accessWord true .dstAddr v, rfl⟩⟩

/-- Settles O12, from the offsets of the registers and of the reserved slots. -/
theorem readOnlyRegisterWritesAreIgnored : Obligations.ReadOnlyRegisterWritesAreIgnored := fun v _ =>
  ⟨⟨decodeWord_accessWord true .status v, rfl⟩, ⟨decodeWord_accessWord true .outLen v, rfl⟩,
    fun _ hlo haligned => ⟨decodeWord_write_rsvd hlo haligned v, rfl⟩⟩

/-- Settles O13: a write to CMD decodes as its command word, and START = 0 makes it a NOP. -/
theorem nopChangesNothing : Obligations.NopChangesNothing := by
  intro c mode ign s
  refine ⟨rfl, fun hstart => ⟨commandMode c, commandIgn c, ?_⟩⟩
  rw [← decodeCommand_of_not_start hstart, ← decodeAccess_write_cmd]
  exact decodeWord_accessWord true .cmd c

/-- Settles O14, from the offsets of the registers and of the reserved slots. -/
theorem registerReadsReturnTheValue : Obligations.RegisterReadsReturnTheValue := fun d _ =>
  ⟨⟨decodeWord_accessWord false .cmd d, rfl⟩, ⟨decodeWord_accessWord false .width d, rfl⟩,
    ⟨decodeWord_accessWord false .height d, rfl⟩, ⟨decodeWord_accessWord false .srcAddr d, rfl⟩,
    ⟨decodeWord_accessWord false .srcLen d, rfl⟩, ⟨decodeWord_accessWord false .dstAddr d, rfl⟩,
    ⟨decodeWord_accessWord false .outLen d, rfl⟩,
    fun _ hlo haligned => ⟨decodeWord_read_rsvd hlo haligned d, rfl⟩⟩

/-- Settles O15: STATUS stands at offset 0x04, and its read stores the value in the response. -/
theorem statusReadReturnsStatus : Obligations.StatusReadReturnsStatus :=
  fun d _ => ⟨decodeWord_accessWord false .status d, rfl⟩

/-- Settles O24: both START commands look at the phase first. -/
theorem startWhileBusyIsIgnored : Obligations.StartWhileBusyIsIgnored := by
  intro s m ign hp
  rw [exec_startInstr, start_of_busy m hp]

/-- Settles O25: the buffer is valid, and the file is longer than 32 bits can say. -/
theorem tallestOneWideImageIsOutOfRange : Obligations.TallestOneWideImageIsOutOfRange := by
  intro s m ign hp hw hh hl
  have hraise :=
    startCommand_of_not_rangeValid (State.bufferValid_tallest hw hh hl) (State.not_rangeValid_tallest hw hh m)
  rw [← start_of_idle m hp, ← exec_startInstr m ign] at hraise
  exact ⟨State.startTotal_tallest hw hh .tc, State.startTotal_tallest hw hh .mono, hraise⟩

end

section
/-!
PROOFS of the statements on 60_exceptions.md: when a START raises InvalidBuffer and when it raises Range.
-/

namespace Sys2Proof.Machine

/-- A `StartCommand` that answers a next state failed the first check, or the second alone, or passed all three (R191). -/
theorem startCommand_next_cases {m : Mode} {s t : State} (h : startCommand m s = .next t) :
    (¬ s.BufferValid ∧ t = s.raise .invalidBuffer) ∨
    (s.BufferValid ∧ ¬ s.RangeValid m ∧ t = s.raise .range) ∨
    (s.BufferValid ∧ s.RangeValid m ∧ s.RegionsApart m ∧ t = s.accept (s.startLatch m)) := by
  by_cases hb : s.BufferValid
  · by_cases hr : s.RangeValid m
    · by_cases hd : s.RegionsApart m
      · rw [startCommand_of_valid hb hr hd] at h
        cases h
        exact .inr (.inr ⟨hb, hr, hd, rfl⟩)
      · rw [startCommand_eq_overlap_iff.2 ⟨hb, hr, hd⟩] at h
        cases h
    · rw [startCommand_of_not_rangeValid hb hr] at h
      cases h
      exact .inr (.inl ⟨hb, hr, rfl⟩)
  · rw [startCommand_of_not_bufferValid m hb] at h
    cases h
    exact .inl ⟨hb, rfl⟩

theorem statusOfBusy_ne_statusOfError (c : ErrorCond) : statusOfBusy ≠ statusOfError c := by
  cases c <;> decide

theorem statusOfError_range_ne_invalidBuffer : statusOfError .range ≠ statusOfError .invalidBuffer := by decide

/-- A `StartCommand` leaves InvalidBuffer's STATUS only where the buffer is invalid. -/
theorem startCommand_invalidBuffer_status {m : Mode} {s t : State} (h : startCommand m s = .next t)
    (ht : t.status = statusOfError .invalidBuffer) : ¬ s.BufferValid := by
  rcases startCommand_next_cases h with ⟨hb, -⟩ | ⟨-, -, rfl⟩ | ⟨-, -, -, rfl⟩
  · exact hb
  · exact absurd ht statusOfError_range_ne_invalidBuffer
  · exact absurd ht (statusOfBusy_ne_statusOfError _)

/-- A `StartCommand` leaves Range's STATUS only where the buffer is valid and out of range. -/
theorem startCommand_range_status {m : Mode} {s t : State} (h : startCommand m s = .next t)
    (ht : t.status = statusOfError .range) : s.BufferValid ∧ ¬ s.RangeValid m := by
  rcases startCommand_next_cases h with ⟨-, rfl⟩ | ⟨hb, hr, -⟩ | ⟨-, -, -, rfl⟩
  · exact absurd ht statusOfError_range_ne_invalidBuffer.symm
  · exact ⟨hb, hr⟩
  · exact absurd ht (statusOfBusy_ne_statusOfError _)

end Sys2Proof.Machine

open Sys2Proof Sys2Proof.Machine

/-- Settles O21: `Validate` is the first check of `StartCommand`, and no other branch leaves its STATUS. -/
theorem invalidBufferIsRaisedExactly : Obligations.InvalidBufferIsRaisedExactly := by
  intro s m ign hp
  rw [exec_startInstr, start_of_idle m hp]
  exact ⟨startCommand_of_not_bufferValid m, fun hb _ h ht => startCommand_invalidBuffer_status h ht hb⟩

/-- Settles O22: `RangeCheck` is the second check of `StartCommand`, and no other branch leaves its STATUS. -/
theorem rangeIsRaisedExactly : Obligations.RangeIsRaisedExactly := by
  intro s m ign hp
  rw [exec_startInstr, start_of_idle m hp]
  refine ⟨startCommand_of_not_rangeValid, fun hcases _ h ht => ?_⟩
  obtain ⟨hb, hr⟩ := startCommand_range_status h ht
  exact hcases.elim (absurd hb) hr

end

section
/-!
PROOFS of the statements on 70_reset_and_hazards.md: a read after a write, `WAIT`, the source region of a running
command, reset, the host duties of R255 and R256, and accesses outside the interface.
-/

namespace Sys2Proof.Machine

/-! ## Accesses outside the interface (R262) -/

/-- An access of the wrong width or alignment fetches no instruction. -/
theorem fetchAccess_outside_interface {a : BusAccess} (h : a.width ≠ 32 ∨ a.off.toNat % 4 ≠ 0) :
    ∃ r, fetchAccess a = .error r ∧ (r = .accessWidth ∨ r = .accessAlignment) := by
  by_cases hwidth : a.width = 32
  · obtain ⟨write, off, width, data⟩ := a
    obtain rfl : width = 32 := hwidth
    have hmis : off.toNat % 4 ≠ 0 := h.resolve_left (absurd rfl)
    exact ⟨_, fetchAccess_misaligned hmis data, .inr rfl⟩
  · exact ⟨_, fetchAccess_of_width_ne hwidth, .inl rfl⟩

theorem step_of_refused_access {s : State} {a : BusAccess} {rest : List Event} {r : Refusal}
    (hq : s.inbox = .access a :: rest) (hf : fetchAccess a = .error r) : step s = .refused r := by
  rw [step_of_inbox_cons hq, runEvent, runAccess, hf]

/-- A run whose first step is refused is no safe run (R16). -/
theorem not_safeFor_of_refused {s : State} {r : Refusal} (h : step s = .refused r) (n : Nat) :
    ¬ SafeFor (n + 1) s := by
  rintro ⟨t, ht⟩
  rw [runSteps, h] at ht
  cases ht

/-! ## A read after a write (R259) -/

/-- A register's value after a write: the new one where it is the read-write register written, else the old one. -/
theorem State.readReg_writeReg (s : State) (r r' : Reg) (v : Word) :
    (s.writeReg r v).readReg r' = if r = r' ∧ r ∈ operandRegs then v else s.readReg r' := by
  split
  case isTrue h =>
    obtain ⟨rfl, hr⟩ := h
    exact s.readReg_writeReg_same hr v
  case isFalse h =>
    by_cases heq : r' = r
    · subst heq
      have hr : r' ∉ operandRegs := fun hr => h ⟨rfl, hr⟩
      cases r' with
      | cmd | status | outLen | rsvd => rfl
      | width | height | srcAddr | srcLen | dstAddr => exact absurd (by decide) hr
    · exact s.readReg_writeReg_other heq v

/-- The read-write registers are those at offsets 0x08 to 0x18 (R23). -/
theorem mem_operandRegs_iff_offset {r : Reg} :
    r ∈ operandRegs ↔
      r.offset = 0x08 ∨ r.offset = 0x0C ∨ r.offset = 0x10 ∨ r.offset = 0x14 ∨ r.offset = 0x18 := by
  simp only [operandRegs, List.mem_cons, List.not_mem_nil, or_false, ← Reg.offset_injective.eq_iff, Reg.offset]

/-- A word-aligned offset is a register's. -/
theorem exists_reg_offset {off : BitVec 6} (h : off.toNat % 4 = 0) : ∃ r : Reg, r.offset = off :=
  ⟨regAt off, offset_regAt (aligned_iff.2 h)⟩

/-- A step that reads a register returns its value. -/
theorem step_read (s : State) (r : Reg) (d : Word) (rest : List Event) :
    ∃ t, step { s with inbox := .access ⟨false, r.offset, 32, d⟩ :: rest } = .next t ∧
      t.response = .word (s.readReg r) ∧ t.inbox = rest := by
  rw [step_of_access rfl (fetchAccess_offset false r d), decodeAccess, decodeRead, regAt_offset]
  cases r <;> exact ⟨_, rfl, rfl, rfl⟩

/-! ## Reset (R250, R251) -/

theorem State.readReg_resetOn (p : Platform) (r : Reg) : (State.resetOn p).readReg r = 0 := by
  cases r <;> rfl

@[simp] theorem State.readReg_takeReset (s : State) (r : Reg) : s.takeReset.readReg r = 0 := by
  cases r <;> simp [State.readReg]

theorem State.resetOn_inv (p : Platform) : (State.resetOn p).Inv where
  mem_wf := rfl
  status_legal := legalStatus_zero
  busy_iff := by simp [State.resetOn]
  outLen_done h := absurd rfl h
  latch_valid := by simp [State.resetOn]
  latch_open := by simp [State.resetOn]

theorem drawBytes_getElem {first n i : Nat} (hi : i < (drawBytes first n).length) :
    (drawBytes first n)[i] = Config.draw (first + i) := by
  simp [drawBytes]

/-- After a reset while BUSY, byte `i` of the destination region is the draw numbered `draws + i` (R251). -/
theorem takeReset_read_dst {s : State} (hm : Memory.wf s.mem = true) (hp : s.phase = .busy)
    (hfits : s.latch.dst + s.latch.total ≤ Config.addrSpace) {i : Nat} (hi : i < s.latch.total) :
    Memory.read s.takeReset.mem (s.latch.dst + i) = Config.draw (s.draws + i) := by
  have hin : i < (drawBytes s.draws s.latch.total).length := by rwa [drawBytes_length]
  rw [State.takeReset_mem_busy hp, Memory.read_writeBytes_inside hm (by rwa [drawBytes_length]) hin, drawBytes_getElem]

/-- Reset changes no byte outside a running command's destination region (R250, R251). -/
theorem takeReset_read_outside {s : State} {a : Nat} (ha : a < s.latch.dst ∨ s.latch.dst + s.latch.total ≤ a) :
    Memory.read s.takeReset.mem a = Memory.read s.mem a := by
  cases hp : s.phase with
  | idle => rw [State.takeReset_mem_idle hp]
  | busy =>
    rw [State.takeReset_mem_busy hp]
    exact Memory.read_writeBytes_outside (by rwa [drawBytes_length])

/-! ## The host duties while an interval is open (R255, R256) -/

theorem State.meetsOpenSource_iff {s : State} {a n : Nat} :
    s.meetsOpenSource a n = true ↔
      ∃ l ∈ s.openCmds, ∃ x, (a ≤ x ∧ x < a + n) ∧ (l.src ≤ x ∧ x < l.src + l.len) := by
  simp only [State.meetsOpenSource, List.any_eq_true, regionsMeet_iff]

theorem State.meetsOpenDest_iff {s : State} {a n : Nat} :
    s.meetsOpenDest a n = true ↔
      ∃ l ∈ s.openCmds, ∃ x, (a ≤ x ∧ x < a + n) ∧ (l.dst ≤ x ∧ x < l.dst + l.total) := by
  simp only [State.meetsOpenDest, List.any_eq_true, regionsMeet_iff]

/-- Inside the address space and outside the window, a host write that meets an open source region is the fault
SRC_WRITE_BUSY (assumption 7). -/
theorem hostMemWrite_srcWriteBusy {a : Nat} {bs : List Byte} {s : State} (hfit : a + bs.length ≤ Config.addrSpace)
    (hwin : s.plat.windowMeets a bs.length = false) (hsrc : s.meetsOpenSource a bs.length = true) :
    hostMemWrite a bs s = .fault .srcWriteBusy := by
  simp [hostMemWrite, inAddrSpace, hfit, hwin, hsrc]

/-- A host write that meets an open destination region and no open source region is the fault DST_ACCESS_BUSY. -/
theorem hostMemWrite_dstAccessBusy {a : Nat} {bs : List Byte} {s : State} (hfit : a + bs.length ≤ Config.addrSpace)
    (hwin : s.plat.windowMeets a bs.length = false) (hsrc : s.meetsOpenSource a bs.length = false)
    (hdst : s.meetsOpenDest a bs.length = true) : hostMemWrite a bs s = .fault .dstAccessBusy := by
  simp [hostMemWrite, inAddrSpace, hfit, hwin, hsrc, hdst]

theorem hostMemRead_dstAccessBusy {a n : Nat} {s : State} (hfit : a + n ≤ Config.addrSpace)
    (hwin : s.plat.windowMeets a n = false) (hdst : s.meetsOpenDest a n = true) :
    hostMemRead a n s = .fault .dstAccessBusy := by
  simp [hostMemRead, inAddrSpace, hfit, hwin, hdst]

/-! ## The source region of a running command (R254) -/

/-- A byte of a valid record's source region lies outside its destination region (R68). -/
theorem Latch.Valid.source_outside_dst {l : Latch} (h : l.Valid) {a : Nat} (hlo : l.src ≤ a)
    (hhi : a < l.src + l.len) : a < l.dst ∨ l.dst + l.total ≤ a := by
  by_contra hout
  exact h.no_shared_byte a ⟨⟨hlo, hhi⟩, by omega⟩

/-- A host write that answers a next state leaves the source region of every open command alone (R255). -/
theorem hostMemWrite_read_source {a : Nat} {bs : List Byte} {s t : State} (h : hostMemWrite a bs s = .next t)
    {l : Latch} (hl : l ∈ s.openCmds) {x : Nat} (hlo : l.src ≤ x) (hhi : x < l.src + l.len) :
    Memory.read t.mem x = Memory.read s.mem x := by
  obtain ⟨-, hsrc, -, rfl⟩ := hostMemWrite_next h
  refine Memory.read_writeBytes_outside ?_
  by_contra hin
  have hmeets : s.meetsOpenSource a bs.length = true :=
    State.meetsOpenSource_iff.2 ⟨l, hl, x, by omega, hlo, hhi⟩
  rw [hsrc] at hmeets
  cases hmeets

/-- The engine's turn changes no byte outside the destination region of a valid record. -/
theorem engineTurn_read_outside {s : State} (hl : s.latch.Valid) {a : Nat}
    (ha : a < s.latch.dst ∨ s.latch.dst + s.latch.total ≤ a) :
    Memory.read s.engineTurn.mem a = Memory.read s.mem a := by
  rcases engineTurn_cases s with ⟨-, -, e⟩ | ⟨-, e⟩ <;> rw [e]
  exact engineComplete_read_outside hl ha

/-! ## What closes an open interval (R255, R256) -/

theorem fetchAccess_ok {a : BusAccess} {i : Instr} (h : fetchAccess a = .ok i) :
    decodeWord (accessWord a.write a.off a.data) = .ok i := by
  unfold fetchAccess at h
  split at h
  · split at h
    · cases h
      assumption
    · cases h
  · cases h

/-- An access stands at the offset that the instruction it fetches is encoded with. -/
theorem fetchAccess_off {a : BusAccess} {i : Instr} (h : fetchAccess a = .ok i) : a.off = accessOff (encode i) := by
  obtain ⟨-, henc⟩ := wf_and_encode_of_decodeWord (fetchAccess_ok h)
  rw [henc, accessOff_accessWord]

/-- The next event is a read of STATUS: an access by its offset or bus address, or a poll's read. -/
def State.NextStatusRead (s : State) : Prop :=
  (∃ a d, s.NextAccess a ∧ fetchAccess a = .ok (.rdStatus d)) ∨
    ∃ mask value, s.inbox.head? = some (.poll Reg.status.offset mask value)

/-- An access or a poll that fetches RD_STATUS is a read of STATUS. -/
theorem nextStatusRead_of_fetch {s : State} {a : BusAccess} {e : Event} {q : List Event} {d : Word}
    (hq : s.inbox = e :: q)
    (ha : s.NextAccess a ∨ ∃ off mask value, e = .poll off mask value ∧ a = ⟨false, off, 32, 0⟩)
    (hf : fetchAccess a = .ok (.rdStatus d)) : s.NextStatusRead := by
  rcases ha with ha | ⟨off, mask, value, rfl, rfl⟩
  · exact .inl ⟨a, d, ha, hf⟩
  · have hoff : off = Reg.status.offset := (fetchAccess_off hf).trans (accessOff_accessWord _ _ _)
    exact .inr ⟨mask, value, by rw [hq, hoff]; rfl⟩

@[simp] theorem engineTurn_openCmds (s : State) : s.engineTurn.openCmds = s.openCmds := by
  rcases engineTurn_cases s with ⟨-, -, e⟩ | ⟨-, e⟩ <;> rw [e]
  rfl

/-- A step keeps every open interval, or is reset, or a STATUS read with BUSY = 0, which closes them all. -/
theorem step_openCmds {s t : State} (h : step s = .next t) :
    s.openCmds ⊆ t.openCmds ∨ s.inbox.head? = some .reset ∨
      (s.NextStatusRead ∧ statusBusy s.status = false ∧ t.response = .word s.status ∧ t.openCmds = []) := by
  rcases step_cases h with ⟨-, rfl⟩ | ⟨e, q, hq, hacc | hwr | hrd | hfence | heng | hreset⟩
  · exact .inl (by simp)
  · obtain ⟨a, i, u, ha, hf, he, q', rfl⟩ := hacc
    rcases exec_openCmds he with ⟨d, rfl, rfl⟩ | hsame | ⟨l, hopen⟩
    · cases hb : statusBusy s.status with
      | false => exact .inr (.inr ⟨nextStatusRead_of_fetch hq ha hf, rfl, rfl, by simp [hb]⟩)
      | true => exact .inl (by simp [hb])
    · exact .inl (by simp [hsame])
    · exact .inl (by simp [hopen])
  · obtain ⟨a, bs, -, hw⟩ := hwr
    obtain ⟨-, -, -, rfl⟩ := hostMemWrite_next hw
    exact .inl (List.Subset.refl _)
  · obtain ⟨a, n, -, hr⟩ := hrd
    obtain ⟨-, -, rfl⟩ := hostMemRead_next hr
    exact .inl (List.Subset.refl _)
  · obtain ⟨-, rfl⟩ := hfence
    exact .inl (List.Subset.refl _)
  · obtain ⟨-, rfl⟩ := heng
    exact .inl (by simp)
  · obtain ⟨rfl, -⟩ := hreset
    exact .inr (.inl (by rw [hq]; rfl))

end Sys2Proof.Machine

open Sys2Proof Sys2Proof.Machine

/-- Settles O16: the write stores to its register alone, and each read returns its register's value. -/
theorem readAfterWriteAcrossTheWindow : Obligations.ReadAfterWriteAcrossTheWindow := by
  intro s woff roff v rest hw hr hcmd
  obtain ⟨r, rfl⟩ := exists_reg_offset hw
  obtain ⟨r', rfl⟩ := exists_reg_offset hr
  have hne : r ≠ .cmd := fun h => hcmd (by rw [h]; rfl)
  have hwrite := step_wrEvent (x := (r, v)) hne s (.access ⟨false, r'.offset, 32, 0⟩ :: rest)
  obtain ⟨t, hread, htresp, htq⟩ := step_read (s.store (r, v)) r' 0 rest
  obtain ⟨u, hold, huresp, -⟩ := step_read s r' 0 rest
  have hvalue : (s.store (r, v)).readReg r' = if r = r' ∧ r ∈ operandRegs then v else s.readReg r' :=
    s.readReg_writeReg r r' v
  refine ⟨t, u, ?_, hold, htq, ?_⟩
  · exact (runSteps_succ_of_next hwrite).trans (runSteps_succ_of_next hread)
  · rw [htresp, huresp, hvalue, apply_ite Response.word]
    exact if_congr (and_congr Reg.offset_injective.eq_iff.symm mem_operandRegs_iff_offset) rfl rfl

/-- Settles O30: the read that misses, the engine's completion, and the read of DONE. -/
theorem waitEndsWithDone : Obligations.WaitEndsWithDone := by
  intro s rest hinv hbusy hadm
  exact ⟨_, runSteps_wait rest hbusy (hinv.busy_iff.2 hbusy) hadm, rfl, rfl, rfl,
    engineComplete_outLen_toNat (hinv.latch_valid hbusy)⟩

/-- Settles O31: completion and reset write the destination region, which shares no byte with the source region, and a
host write that answers meets no open source region. -/
theorem sourceBytesStayWhileACommandRuns : Obligations.SourceBytesStayWhileACommandRuns := by
  intro s t a hinv hbusy h hlo hhi
  have hvalid := hinv.latch_valid hbusy
  have hout := hvalid.source_outside_dst hlo hhi
  rcases step_cases h with ⟨-, rfl⟩ | ⟨e, q, -, hacc | hwr | hrd | hfence | heng | hreset⟩
  · exact engineTurn_read_outside hvalid hout
  · obtain ⟨_, i, u, -, -, he, q', rfl⟩ := hacc
    exact congrArg (Memory.read · a) (exec_frame he).1
  · obtain ⟨_, bs, -, hw⟩ := hwr
    exact hostMemWrite_read_source hw (hinv.latch_open hbusy) hlo hhi
  · obtain ⟨_, n, -, hr⟩ := hrd
    obtain ⟨-, -, rfl⟩ := hostMemRead_next hr
    rfl
  · obtain ⟨-, rfl⟩ := hfence
    rfl
  · obtain ⟨-, rfl⟩ := heng
    exact engineTurn_read_outside (s := { s with inbox := q }) hvalid hout
  · obtain ⟨-, rfl⟩ := hreset
    exact takeReset_read_outside (s := { s with inbox := q }) hout

/-- Settles O44: the draws fill the destination region, which shares no byte with the source region. -/
theorem resetWhileBusyLeavesDraws : Obligations.ResetWhileBusyLeavesDraws := by
  intro s rest hinv hbusy hq
  have hvalid := hinv.latch_valid hbusy
  have hout (a : Nat) (ha : a < s.latch.dst ∨ s.latch.dst + s.latch.total ≤ a) :
      Memory.read (State.takeReset { s with inbox := rest }).mem a = Memory.read s.mem a := takeReset_read_outside ha
  exact ⟨_, step_of_inbox_cons hq, State.takeReset_status _, State.takeReset_phase _,
    fun _ hi => takeReset_read_dst (s := { s with inbox := rest }) hinv.mem_wf hbusy hvalid.dst_fits hi, hout,
    fun a hlo hhi => hout a (hvalid.source_outside_dst hlo hhi), State.takeReset_draws_busy hbusy⟩

/-- Settles O53: the action passes the first two checks and fails the third. -/
theorem sourceWriteWhileOpenFaults : Obligations.SourceWriteWhileOpenFaults := by
  intro s a bs rest l x hl hfit hwin hax hxa hlo hhi
  have hsrc : s.meetsOpenSource a bs.length = true := State.meetsOpenSource_iff.2 ⟨l, hl, x, ⟨hax, hxa⟩, hlo, hhi⟩
  rw [step_of_inbox_cons rfl]
  exact hostMemWrite_srcWriteBusy hfit (Platform.windowMeets_eq_false_iff.2 hwin) hsrc

/-- Settles O54: the action passes every check but that of the open destination regions. -/
theorem destinationAccessWhileOpenFaults : Obligations.DestinationAccessWhileOpenFaults := by
  intro s a bs rest l x hl hfit hwin hax hxa hlo hhi
  have hwin := Platform.windowMeets_eq_false_iff.2 hwin
  have hdst : s.meetsOpenDest a bs.length = true := State.meetsOpenDest_iff.2 ⟨l, hl, x, ⟨hax, hxa⟩, hlo, hhi⟩
  rw [step_of_inbox_cons rfl, step_of_inbox_cons rfl]
  refine ⟨hostMemRead_dstAccessBusy hfit hwin hdst, fun hnone => ?_⟩
  have hsrc : s.meetsOpenSource a bs.length = false := by
    rw [← Bool.not_eq_true, State.meetsOpenSource_iff]
    rintro ⟨k, hk, y, ⟨hay, hya⟩, hsrc⟩
    exact hnone k hk y hay hya hsrc
  exact hostMemWrite_dstAccessBusy hfit hwin hsrc hdst

/-- Settles O55: every other step keeps the open intervals. -/
theorem hostDutyIntervalStaysOpen : Obligations.HostDutyIntervalStaysOpen := by
  intro s t l h hl hclosed
  exact (step_openCmds h).resolve_left fun hkept => hclosed (hkept hl)

/-- Settles O9: the access fetches no instruction, so its step is refused and the run ends there. -/
theorem accessOutsideInterfaceIsRefused : Obligations.AccessOutsideInterfaceIsRefused := by
  intro s a rest n hq hmisfit
  obtain ⟨r, hf, hr⟩ := fetchAccess_outside_interface hmisfit
  have hrefused := step_of_refused_access hq hf
  exact ⟨⟨r, hrefused, hr⟩, not_safeFor_of_refused hrefused n⟩

/-- Settles O43, field by field. -/
theorem resetClearsTheBlock : Obligations.ResetClearsTheBlock := by
  intro s rest hq
  exact ⟨_, step_of_inbox_cons hq, State.takeReset_status _, State.takeReset_width _, State.takeReset_height _,
    State.takeReset_srcAddr _, State.takeReset_srcLen _, State.takeReset_dstAddr _, State.takeReset_outLen _,
    State.readReg_takeReset _, State.takeReset_phase _, State.takeReset_latch _,
    fun hp => State.takeReset_mem_idle (s := { s with inbox := rest }) hp⟩

/-- Settles O45: a read returns the register's value, which reset made 0. -/
theorem everyRegisterReadsZeroAfterReset : Obligations.EveryRegisterReadsZeroAfterReset := by
  intro p off haligned
  obtain ⟨r, rfl⟩ := exists_reg_offset haligned
  obtain ⟨t, ht, hresp, -⟩ := step_read (State.resetOn p) r 0 []
  exact ⟨t, ht, by rw [hresp, State.readReg_resetOn]⟩

/-- Settles O46, clause by clause of the invariant. -/
theorem resetStateMeetsTheInvariant : Obligations.ResetStateMeetsTheInvariant :=
  ⟨State.resetOn_inv Config.platform, State.resetOn_inv⟩

end

section
/-!
PROOFS of the statement on 95_test_vectors.md section 2.5: the access words listed there.
-/

open Sys2Proof Sys2Proof.Machine

/-- Settles O6: ten of the words are accesses to a register, named here by direction, register and DATA; the last is a
read at the misaligned offset 0x06. -/
theorem listedAccessWordsDecode : Obligations.ListedAccessWordsDecode :=
  ⟨decodeWord_accessWord true .cmd 0, decodeWord_accessWord true .cmd 2, decodeWord_accessWord true .cmd 1,
    decodeWord_accessWord true .cmd 3, decodeWord_accessWord true .cmd 0xFFFFFFFD, decodeWord_accessWord true .width 8,
    decodeWord_accessWord false .status 0, decodeWord_accessWord false .outLen 0,
    decodeWord_accessWord true (.rsvd 0) 0, decodeWord_accessWord false (.rsvd 7) 0,
    decodeWord_misaligned (w := false) (off := 0x06) (by decide) 0⟩

end
